-- ==== Sys2Proof/Word.lean ====
section
/-!
DEFINITION. The two bit-vector types of HB: bytes and 32-bit words (00_scope.md R6, R8).
Every value is unsigned; there is no sign extension (R8).
-/

namespace Sys2Proof

/-- One byte: an element of PATH, FNAME, HEADER, BLOCK or DMEM. -/
abbrev Byte := BitVec 8

/-- One word: the width of every host register access and of a command word (00_scope.md R6). -/
abbrev Word := BitVec 32

end Sys2Proof
end

