-- ==== Sys2Proof/Syntax.lean ====
section
/-!
DEFINITION. The commands of HB: one constructor per row of spec/opcode_table.json (30_encoding.md R67).
The one explicit operand is GETBLK's block index; every other operand is implicit (R65, R66).
-/

namespace Sys2Proof

/-- A command of the opcode map (30_encoding.md R67). -/
inductive Instr where
  /-- NOP (44_control.md R107). -/
  | nop
  /-- ENCFN (40_filename_encoder.md R84). -/
  | encfn
  /-- CSUMBLK (41_checksum.md R87). -/
  | csumblk
  /-- CSUMRNG (41_checksum.md R88). -/
  | csumrng
  /-- SEGMENT (42_segmenter.md R95). -/
  | segment
  /-- GETBLK i (42_segmenter.md R96); the index is an unsigned number, used unscaled (30_encoding.md R65). -/
  | getblk (index : Nat)
  /-- BUILDHDR (43_header_builder.md R105). -/
  | buildhdr
  /-- SRESET (44_control.md R109). -/
  | sreset
  deriving DecidableEq, Repr

end Sys2Proof
end

