-- ==== Sys2Proof/WellFormed.lean ====
section
/-!
DEFINITION. Which terms of Instr have an encoding: GETBLK's index is one of 0 to 65535
(30_encoding.md R65); a spelling with an operand out of range has no encoding (R72).
-/

namespace Sys2Proof

/-- An instruction whose operand fits its field. -/
def Instr.wellFormed : Instr → Bool
  | .nop => true
  | .encfn => true
  | .csumblk => true
  | .csumrng => true
  | .segment => true
  | .getblk index => decide (index < 65536)
  | .buildhdr => true
  | .sreset => true

end Sys2Proof
end

