-- ==== Sys2Proof/Decode.lean ====
section
/-!
DEFINITION. The decoder, total on all 2^32 command words (30_encoding.md R63 to R70), and after it the
encoder (R67, R72). A command is one 32-bit word written in one access, so it has no byte order (R64).
-/

namespace Sys2Proof

/-- Why a word is no command; each reason completes with IllegalCommand (30_encoding.md R68, R69). -/
inductive Illegal where
  /-- RSV, bits 31:24, is not 0 (R69). -/
  | reservedField
  /-- IMM, bits 23:8, is not 0 and OP is not GETBLK's (R69). -/
  | immNotZero
  /-- OP is one of 0x07 to 0x0E and 0x10 to 0xFF (R68). -/
  | reservedOpcode
  deriving DecidableEq, Repr

/-- What a command word decodes to. -/
inductive Decoded where
  | instr (i : Instr)
  | illegal (r : Illegal)
  deriving DecidableEq, Repr

/-- RSV, bits 31:24 (30_encoding.md R63). -/
def rsvField (w : Word) : BitVec 8 := w.extractLsb' 24 8

/-- IMM, bits 23:8 (30_encoding.md R63, R65). -/
def immField (w : Word) : BitVec 16 := w.extractLsb' 8 16

/-- OP, bits 7:0 (30_encoding.md R63). -/
def opField (w : Word) : BitVec 8 := w.extractLsb' 0 8

/-- The opcode map for a word with IMM = 0 (30_encoding.md R67, R70). -/
def decodeOp (op : BitVec 8) : Decoded :=
  match op.toNat with
  | 0x00 => .instr .nop
  | 0x01 => .instr .encfn
  | 0x02 => .instr .csumblk
  | 0x03 => .instr .csumrng
  | 0x04 => .instr .segment
  | 0x06 => .instr .buildhdr
  | 0x0F => .instr .sreset
  | _ => .illegal .reservedOpcode

/-- The decoder of 30_encoding.md R70, its checks in that rule's order. -/
def decode (w : Word) : Decoded :=
  if rsvField w ≠ 0 then .illegal .reservedField
  else if opField w = 0x05 then .instr (.getblk (immField w).toNat)
  else if immField w ≠ 0 then .illegal .immNotZero
  else decodeOp (opField w)

/-- The word of a well-formed instruction (30_encoding.md R67; GETBLK: R72, `(index << 8) | 0x05`). -/
def encode : Instr → Word
  | .nop => 0x00000000
  | .encfn => 0x00000001
  | .csumblk => 0x00000002
  | .csumrng => 0x00000003
  | .segment => 0x00000004
  | .getblk index => (BitVec.ofNat 32 index <<< 8) ||| 0x00000005
  | .buildhdr => 0x00000006
  | .sreset => 0x0000000F

/-- The mask of an instruction's row in the opcode map (30_encoding.md R67). -/
def rowMask : Instr → Word
  | .getblk _ => 0xFF0000FF
  | .nop | .encfn | .csumblk | .csumrng | .segment | .buildhdr | .sreset => 0xFFFFFFFF

/-- The match value of an instruction's row in the opcode map (30_encoding.md R67). -/
def rowMatch : Instr → Word
  | .nop => 0x00000000
  | .encfn => 0x00000001
  | .csumblk => 0x00000002
  | .csumrng => 0x00000003
  | .segment => 0x00000004
  | .getblk _ => 0x00000005
  | .buildhdr => 0x00000006
  | .sreset => 0x0000000F

/-- The instruction decoded from a word numbered as spec/opcode_table.json numbers it, bits above `nbits` zero. -/
def decodeTableWord (nbits w : Nat) : Option Instr :=
  match decode (BitVec.ofNat 32 (w % 2 ^ nbits)) with
  | .instr i => some i
  | .illegal _ => none

end Sys2Proof
end

