-- ==== Sys2Proof/Config.lean ====
section
/-!
DEFINITION. The implementation parameters of 00_scope.md R6, and the free value of the model.
CMD_LATENCY is no constant: it is plain data in State (log entry 4).
-/

namespace Sys2Proof.Config

/-- BLOCK_SIZE (00_scope.md R6). -/
abbrev blockSize : Nat := 128
/-- NAME_LEN (00_scope.md R6). -/
abbrev nameLen : Nat := 8
/-- EXT_LEN (00_scope.md R6). -/
abbrev extLen : Nat := 3
/-- FNAME_LEN (00_scope.md R6). -/
abbrev fnameLen : Nat := 11
/-- HEADER_LEN (00_scope.md R6). -/
abbrev headerLen : Nat := 14
/-- START_MARKER (00_scope.md R6). -/
abbrev startMarker : Byte := 0x01
/-- MAX_BLOCKS (00_scope.md R6). -/
abbrev maxBlocks : Nat := 65535
/-- ACK_STATUS: HB does not use it, its host does (00_scope.md R6, 42_segmenter.md R101). -/
abbrev ackStatus : Byte := 0x06
/-- MAX_DATA_LEN = MAX_BLOCKS × BLOCK_SIZE (00_scope.md R6, 42_segmenter.md R93). -/
abbrev maxDataLen : Nat := 8388480
/-- DMEM_SIZE, equal to MAX_DATA_LEN (00_scope.md R6). -/
abbrev dmemSize : Nat := 8388480
/-- DMEM_ADDR_BITS (00_scope.md R6). -/
abbrev dmemAddrBits : Nat := 23
/-- PATH_MAX (00_scope.md R6). -/
abbrev pathMax : Nat := 256
/-- WORD, the width of every host register access (00_scope.md R6). -/
abbrev wordBits : Nat := 32
/-- REG_ADDR_BITS (00_scope.md R6). -/
abbrev regAddrBits : Nat := 12

/-- FREE VALUE (20_memory.md R54, U2; log entry 2): what the host reads from a DMEM byte that was never
written, for a draw counter and an address. It has no body, so nothing can be proved of its value. -/
opaque unwrittenByte : Nat → Nat → Byte

end Sys2Proof.Config
end

