-- ==== Sys2Proof/Machine/State.lean ====
section
/-!
DEFINITION. The state of HB (10_state.md R22) and, beside it, what the outside world does to it.
`Hb` is the record of R22 and nothing else; `State` extends it by the model's own fields (log entry 4).
-/

namespace Sys2Proof.Machine

/-- The outcome codes of STATUS.ERR (60_exceptions.md R111); codes 7 to 15 are never produced (log entry 9). -/
inductive ErrCode where
  | ok
  | invalidFilename
  | fileTooLarge
  | invalidBlockCount
  | illegalCommand
  | sequenceError
  | rangeError
  deriving DecidableEq, Repr

/-- The stored fields of STATUS (10_state.md R24). BUSY is computed from LATCHED: `Hb.busy` (log entry 3);
the reserved bits 3:2 and 31:13 read 0 and are stored nowhere (log entry 10). -/
structure Status where
  /-- ERRSEEN, bit 1 (10_state.md R27). -/
  errSeen : Bool
  /-- ERR, bits 7:4 (10_state.md R26). -/
  err : ErrCode
  /-- FN_VALID, bit 8 (10_state.md R37). -/
  fnValid : Bool
  /-- SEG_VALID, bit 9 (10_state.md R37, R39). -/
  segValid : Bool
  /-- HDR_VALID, bit 10 (10_state.md R37). -/
  hdrValid : Bool
  /-- BLK_VALID, bit 11 (10_state.md R37). -/
  blkValid : Bool
  /-- CS_VALID, bit 12 (10_state.md R37). -/
  csValid : Bool
  deriving DecidableEq, Repr

/-- DMEM as the list of its written bytes, addresses rising; an unlisted byte is unwritten (10_state.md R42). -/
abbrev Memory := List Host.Cell

/-- The complete architectural state of HB (10_state.md R22). -/
structure Hb where
  /-- STATUS (10_state.md R24). -/
  status : Status
  /-- LATCHED: the command word in flight, none when none is (10_state.md R41, R43; log entry 3). -/
  latched : Option Word
  /-- DATA_LEN (10_state.md R28). -/
  dataLen : Word
  /-- CNT (10_state.md R29). -/
  cnt : Word
  /-- PATH_LEN (10_state.md R30). -/
  pathLen : Word
  /-- RBASE (10_state.md R35). -/
  rbase : Word
  /-- RLEN (10_state.md R35). -/
  rlen : Word
  /-- CSUM (10_state.md R36). -/
  csum : Byte
  /-- BLK_IDX (10_state.md R38). -/
  blkIdx : BitVec 16
  /-- PATH (10_state.md R31). -/
  path : Vector Byte 256
  /-- FNAME (10_state.md R32). -/
  fname : Vector Byte 11
  /-- HEADER (10_state.md R33). -/
  header : Vector Byte 14
  /-- BLOCK (10_state.md R34). -/
  block : Vector Byte 128
  /-- DMEM (10_state.md R42). -/
  dmem : Memory
  deriving DecidableEq, Repr

/-- What the outside world can do to HB: the host's accesses (30_encoding.md R73), its polling (R74), and the
two hardware reset events (70_reset_and_hazards.md R128). -/
inductive Move where
  /-- `WR off, v`: one 32-bit REG write. -/
  | wr (off : BitVec 12) (v : Word)
  /-- `RD off`: one 32-bit REG read. -/
  | rd (off : BitVec 12)
  /-- `WRB a, b`: one DMEM byte write. -/
  | wrb (a : BitVec 23) (b : Byte)
  /-- `RDB a`: one DMEM byte read. -/
  | rdb (a : BitVec 23)
  /-- `POLL`: repeat `RD STATUS` until BUSY reads 0 (30_encoding.md R74). -/
  | poll
  /-- A REG access narrower than 32 bits, which is not admitted (20_memory.md R50). -/
  | narrow (off : BitVec 12)
  /-- Power-on (70_reset_and_hazards.md R128). -/
  | powerOn
  /-- The reset input is asserted (70_reset_and_hazards.md R128, R129). -/
  | resetAssert
  /-- The reset input is released: reset ends (70_reset_and_hazards.md R128). -/
  | resetRelease
  deriving DecidableEq, Repr

/-- One value a host read returned. -/
inductive Seen where
  /-- The word read at a REG offset. -/
  | reg (off : BitVec 12) (v : Word)
  /-- The byte read at a DMEM address. -/
  | dmem (a : BitVec 23) (b : Byte)
  deriving DecidableEq, Repr

/-- The machine: HB (the inherited fields) and the model's own fields for the world around it. -/
structure State extends Hb where
  /-- The model's own: what the outside world does next, in order (log entry 5). -/
  moves : List Move
  /-- The model's own: for the command in flight and each later one, how many moves come before its
  completion; past the list's end none do (CMD_LATENCY, 00_scope.md R6; log entry 4). -/
  latency : List Nat
  /-- The model's own: the reset input is asserted (70_reset_and_hazards.md R129; log entry 8). -/
  resetPin : Bool
  /-- The model's own: the values the host's reads returned, newest first (log entry 5). -/
  seen : List Seen
  /-- The model's own: the draw counter of the free value (log entry 2). -/
  draws : Nat
  deriving DecidableEq, Repr

/-- Why the machine stops with a fault. -/
inductive Fault where
  /-- "read of unwritten DMEM byte": raised by GETBLK and CSUMRNG through `memRead` (20_memory.md R56, U1).
  Safe: the hardware goes on with an unspecified byte (log entry 1). -/
  | unwrittenDmemByte
  /-- An engine read at an address with no storage: raised by `memRead`, in no reachable state
  (20_memory.md R56). Safe (log entry 11). -/
  | engineReadOutsideDmem
  deriving DecidableEq, Repr

/-- Why a step has no meaning. -/
inductive Refusal where
  /-- An instruction without a meaning, by its mnemonic: raised by no arm of `exec`. Safe. -/
  | notModelled (mnemonic : String)
  /-- The host wrote CMD while BUSY = 1 (70_reset_and_hazards.md R133, U3): raised by `hostWrite`.
  Unsafe if a real host does it (log entry 7). -/
  | cmdWriteWhileBusy
  /-- The host wrote another REG location, or DMEM, while BUSY = 1 (70_reset_and_hazards.md R135, U4): raised
  by `hostWrite` and `hostWriteByte`. Unsafe if a real host does it (log entry 7). -/
  | writeWhileBusy
  /-- A REG access that is no 32-bit word at a multiple of 4 (70_reset_and_hazards.md R134, U5): raised by
  `hostWrite`, `hostRead` and `hostNarrow`. Unsafe if a real host does it (log entry 7). -/
  | regAccessForm
  /-- A host access while the reset input is asserted (70_reset_and_hazards.md R129, U6): raised by every host
  access. Unsafe if a real host does it (log entry 7). -/
  | accessDuringReset
  deriving DecidableEq, Repr

/-- STATUS after reset (10_state.md R43). -/
def Status.reset : Status :=
  { errSeen := false, err := .ok, fnValid := false, segValid := false, hdrValid := false,
    blkValid := false, csValid := false }

/-- HB after power-on reset (10_state.md R43). -/
def Hb.reset : Hb :=
  { status := Status.reset, latched := none, dataLen := 0, cnt := 0, pathLen := 0, rbase := 0, rlen := 0,
    csum := 0, blkIdx := 0, path := Vector.replicate 256 0, fname := Vector.replicate 11 0,
    header := Vector.replicate 14 0, block := Vector.replicate 128 0, dmem := [] }

/-- The machine right after power-on reset, the outside world doing nothing (log entries 4, 5, 8). -/
def State.reset : State :=
  { toHb := Hb.reset, moves := [], latency := [], resetPin := false, seen := [], draws := 0 }

end Sys2Proof.Machine
end

