-- ==== Sys2Proof/Machine/Flags.lean ====
section
/-!
DEFINITION. STATUS: the numeric error codes (60_exceptions.md R111), BUSY, the packed word the host reads
(10_state.md R24), and the two ways a command ends (60_exceptions.md R112, R113).
-/

namespace Sys2Proof.Machine

/-- The code of an outcome in STATUS.ERR (60_exceptions.md R111). -/
def errCode : ErrCode → BitVec 4
  | .ok => 0
  | .invalidFilename => 1
  | .fileTooLarge => 2
  | .invalidBlockCount => 3
  | .illegalCommand => 4
  | .sequenceError => 5
  | .rangeError => 6

/-- STATUS.BUSY: a command is in flight (10_state.md R25, R41; log entry 3). -/
def busy (h : Hb) : Bool := h.latched.isSome

/-- The STATUS word, bit 31 first: reserved, CS_VALID, BLK_VALID, HDR_VALID, SEG_VALID, FN_VALID, ERR,
reserved, ERRSEEN, BUSY (10_state.md R24). -/
def statusWord (h : Hb) : Word :=
  0#19 ++ BitVec.ofBool h.status.csValid ++ BitVec.ofBool h.status.blkValid ++
    BitVec.ofBool h.status.hdrValid ++ BitVec.ofBool h.status.segValid ++
    BitVec.ofBool h.status.fnValid ++ errCode h.status.err ++ 0#2 ++
    BitVec.ofBool h.status.errSeen ++ BitVec.ofBool (busy h)

/-- STATUS and LATCHED at a successful completion: ERR <- 0, BUSY <- 0, ERRSEEN as it was
(60_exceptions.md R112). -/
def finishOk (s : State) : State :=
  { s with status := { s.status with err := .ok }, latched := none }

/-- STATUS and LATCHED at a completion with an error: ERR <- its code, ERRSEEN <- 1, BUSY <- 0
(60_exceptions.md R113). -/
def finishErr (e : ErrCode) (s : State) : State :=
  { s with status := { s.status with err := e, errSeen := true }, latched := none }

/-- STATUS.SEG_VALID <- 0, the side effect of a host write to DATA_LEN or CNT (10_state.md R39). -/
def clearSegValid (s : State) : State :=
  { s with status := { s.status with segValid := false } }

end Sys2Proof.Machine
end

