-- ==== Sys2Proof/Machine/Ops.lean ====
section
/-!
DEFINITION. The operations every command is written with: DMEM (20_memory.md R53, R56), gathering bytes,
`complete` and `raise` (00_scope.md R11), the writes a command commits on success (30_encoding.md R66), and reset.
HB has no trap, so completing with an error is all there is to an exception (60_exceptions.md R118).
-/

namespace Sys2Proof.Machine

/-- The canonical form of DMEM: addresses strictly rising, every one with storage (20_memory.md R46). An unlisted
byte is unwritten, so no listed byte equals what an unlisted address holds. -/
abbrev Memory.wf (m : Memory) : Prop :=
  m.Pairwise (fun c d => c.1 < d.1) ∧ ∀ c ∈ m, c.1 < Config.dmemSize

/-- The byte written at an address, none when it is unwritten (10_state.md R42). -/
def Memory.lookup : Memory → Nat → Option Byte
  | [], _ => none
  | (k, v) :: rest, a => if k = a then some v else Memory.lookup rest a

/-- Set one byte and mark it written (20_memory.md R53). -/
def Memory.store : Memory → Nat → Byte → Memory
  | [], a, b => [(a, b)]
  | (k, v) :: rest, a, b =>
    if a < k then (a, b) :: (k, v) :: rest
    else if a = k then (a, b) :: rest
    else (k, v) :: Memory.store rest a b

/-- `MemRead(a, 1)`, the engine's only memory access (20_memory.md R56; log entries 1, 11). -/
def memRead (m : Memory) (a : Nat) : Except Fault Byte :=
  if a < Config.dmemSize then
    match Memory.lookup m a with
    | some b => .ok b
    | none => .error .unwrittenDmemByte
  else .error .engineReadOutsideDmem

/-- The bytes `f a, f (a+1), …` of n consecutive addresses, or the first fault among them. -/
def gather (f : Nat → Except Fault Byte) (a : Nat) : Nat → Except Fault (List Byte)
  | 0 => .ok []
  | n + 1 =>
    match f a with
    | .error e => .error e
    | .ok b =>
      match gather f (a + 1) n with
      | .error e => .error e
      | .ok bs => .ok (b :: bs)

/-- An array written byte by byte from a sequence: `for k in 0..n-1: X[k] <- l[k]`. -/
def arrayOf (n : Nat) (l : List Byte) : Vector Byte n :=
  Vector.ofFn fun k => l.getD k.val 0

/-- `complete`: the command ends successfully (60_exceptions.md R112). -/
def complete (s : State) : Host.Outcome State Fault Refusal :=
  .next (finishOk s)

/-- `raise e`: the command ends with an error and writes nothing of its own (60_exceptions.md R113). -/
def raise (e : ErrCode) (s : State) : Host.Outcome State Fault Refusal :=
  .next (finishErr e s)

/-- ENCFN's writes: FNAME and FN_VALID (40_filename_encoder.md R84). -/
def setFname (v : Vector Byte 11) (s : State) : State :=
  { s with fname := v, status := { s.status with fnValid := true } }

/-- CSUMBLK's and CSUMRNG's writes: CSUM and CS_VALID (41_checksum.md R87, R88). -/
def setCsum (v : Byte) (s : State) : State :=
  { s with csum := v, status := { s.status with csValid := true } }

/-- SEGMENT's writes: CNT and SEG_VALID (42_segmenter.md R95). -/
def setCount (v : Word) (s : State) : State :=
  { s with cnt := v, status := { s.status with segValid := true } }

/-- GETBLK's writes: BLOCK, BLK_IDX and BLK_VALID (42_segmenter.md R96). -/
def setBlock (v : Vector Byte 128) (i : BitVec 16) (s : State) : State :=
  { s with block := v, blkIdx := i, status := { s.status with blkValid := true } }

/-- BUILDHDR's writes: HEADER and HDR_VALID (43_header_builder.md R105). -/
def setHeader (v : Vector Byte 14) (s : State) : State :=
  { s with header := v, status := { s.status with hdrValid := true } }

/-- HB after the reset input or SRESET: the reset values, DMEM unchanged (10_state.md R43). -/
def Hb.resetKeepingDmem (h : Hb) : Hb := { Hb.reset with dmem := h.dmem }

/-- Every register, array and flag at its reset value, DMEM unchanged (44_control.md R109). -/
def softReset (s : State) : State := { s with toHb := s.toHb.resetKeepingDmem }

/-- A new draw for the free value: made by every write, completion and reset (20_memory.md R52; log entry 2). -/
def nextDraw (s : State) : State := { s with draws := s.draws + 1 }

/-- The latency of the command that ended is used up (00_scope.md R6; log entry 4). -/
def dropLatency (s : State) : State := { s with latency := s.latency.tail }

/-- What the model adds around a completion: its latency is used up and the draw advances. -/
def afterCompletion (s : State) : State := nextDraw (dropLatency s)

/-- Apply a change to a next state; a fault or a refusal stays as it is. -/
def onNext (f : State → State) :
    Host.Outcome State Fault Refusal → Host.Outcome State Fault Refusal
  | .next s => .next (f s)
  | .fault r => .fault r
  | .refused r => .refused r

end Sys2Proof.Machine
end

