-- ==== Sys2Proof/Machine/Operands.lean ====
section
/-!
DEFINITION. The implicit operands of the commands (30_encoding.md R66) and the REG space the host reaches them
through: the address map (20_memory.md R48) and the byte packing of its windows (R49).
-/

namespace Sys2Proof.Machine

/-- PATH[0..PATH_LEN), the path ENCFN encodes (10_state.md R31, 40_filename_encoder.md R76). -/
def pathBytes (h : Hb) : List Byte := h.path.toList.take h.pathLen.toNat

/-- `le16(v)` of the low 16 bits (00_scope.md R9). -/
def le16 (v : Word) : List Byte := [v.extractLsb' 0 8, v.extractLsb' 8 8]

/-- Byte j of an array as a window shows it: 0 at or beyond its length (20_memory.md R49). -/
def windowByte {n : Nat} (x : Vector Byte n) (j : Nat) : Byte := x[j]?.getD 0

/-- Word k of a window: little-endian (20_memory.md R49). -/
def windowWord {n : Nat} (x : Vector Byte n) (k : Nat) : Word :=
  windowByte x (4 * k + 3) ++ windowByte x (4 * k + 2) ++ windowByte x (4 * k + 1) ++ windowByte x (4 * k)

/-- A write of word k of a window: little-endian, ignored beyond the array (20_memory.md R49). -/
def windowWrite {n : Nat} (x : Vector Byte n) (k : Nat) (w : Word) : Vector Byte n :=
  (((x.setIfInBounds (4 * k) (w.extractLsb' 0 8)).setIfInBounds (4 * k + 1) (w.extractLsb' 8 8)).setIfInBounds
    (4 * k + 2) (w.extractLsb' 16 8)).setIfInBounds (4 * k + 3) (w.extractLsb' 24 8)

/-- What stands at a REG offset (20_memory.md R48); a window's word carries its number. -/
inductive RegLoc where
  | cmd
  | status
  | dataLen
  | cnt
  | pathLen
  | rbase
  | rlen
  | csum
  | blkIdx
  | path (k : Nat)
  | fname (k : Nat)
  | header (k : Nat)
  | block (k : Nat)
  | unmapped
  deriving DecidableEq, Repr

/-- The windows of the address map, by byte offset (20_memory.md R48). -/
def windowLoc (n : Nat) : RegLoc :=
  if 0x100 ≤ n ∧ n ≤ 0x1FF then .path ((n - 0x100) / 4)
  else if 0x200 ≤ n ∧ n ≤ 0x20B then .fname ((n - 0x200) / 4)
  else if 0x210 ≤ n ∧ n ≤ 0x21F then .header ((n - 0x210) / 4)
  else if 0x280 ≤ n ∧ n ≤ 0x2FF then .block ((n - 0x280) / 4)
  else .unmapped

/-- The REG-space address map (20_memory.md R48). -/
def regLoc (off : BitVec 12) : RegLoc :=
  match off.toNat with
  | 0x000 => .cmd
  | 0x004 => .status
  | 0x008 => .dataLen
  | 0x00C => .cnt
  | 0x010 => .pathLen
  | 0x014 => .rbase
  | 0x018 => .rlen
  | 0x01C => .csum
  | 0x020 => .blkIdx
  | n => windowLoc n

/-- An offset the REG port admits: a multiple of 4 (20_memory.md R50). -/
def regAligned (off : BitVec 12) : Bool := off.toNat % 4 == 0

/-- The word the host reads at a location: CMD and unmapped offsets read 0 (10_state.md R23, 20_memory.md R51),
the bits above CSUM and BLK_IDX read 0 (10_state.md R36, R38). -/
def readReg (h : Hb) : RegLoc → Word
  | .cmd => 0
  | .status => statusWord h
  | .dataLen => h.dataLen
  | .cnt => h.cnt
  | .pathLen => h.pathLen
  | .rbase => h.rbase
  | .rlen => h.rlen
  | .csum => h.csum.setWidth 32
  | .blkIdx => h.blkIdx.setWidth 32
  | .path k => windowWord h.path k
  | .fname k => windowWord h.fname k
  | .header k => windowWord h.header k
  | .block k => windowWord h.block k
  | .unmapped => 0

/-- The effect of a host write at a location while no command is in flight: CMD starts a command (10_state.md
R18), DATA_LEN and CNT also clear SEG_VALID (R39), a read-only or unmapped location ignores it (20_memory.md R51). -/
def writeReg (loc : RegLoc) (v : Word) (s : State) : State :=
  match loc with
  | .cmd => { s with latched := some v }
  | .dataLen => clearSegValid { s with dataLen := v }
  | .cnt => clearSegValid { s with cnt := v }
  | .pathLen => { s with pathLen := v }
  | .rbase => { s with rbase := v }
  | .rlen => { s with rlen := v }
  | .path k => { s with path := windowWrite s.path k v }
  | .status | .csum | .blkIdx | .fname _ | .header _ | .block _ | .unmapped => s

end Sys2Proof.Machine
end

