-- ==== Sys2Proof/Machine/Checksum.lean ====
section
/-!
DEFINITION. The block checksum, CSUMBLK and CSUMRNG (41_checksum.md R85 to R88).
-/

namespace Sys2Proof.Machine

/-- `Checksum(s)`: the sum of the bytes modulo 256 (41_checksum.md R85). -/
def checksum (l : List Byte) : Byte := l.foldl (fun acc b => acc + b) 0

/-- CSUMBLK: checksum of the segment in BLOCK (41_checksum.md R87). -/
def execCsumblk (s : State) : Host.Outcome State Fault Refusal :=
  if s.status.blkValid = false then raise .sequenceError s
  else complete (setCsum (checksum s.block.toList) s)

/-- CSUMRNG: checksum of DMEM[RBASE .. RBASE+RLEN), the range check exact (41_checksum.md R88). -/
def execCsumrng (s : State) : Host.Outcome State Fault Refusal :=
  if s.rbase.toNat + s.rlen.toNat > Config.dmemSize then raise .rangeError s
  else
    match gather (memRead s.dmem) s.rbase.toNat s.rlen.toNat with
    | .error f => .fault f
    | .ok bytes => complete (setCsum (checksum bytes) s)

end Sys2Proof.Machine
end

