-- ==== Sys2Proof/Machine/Control.lean ====
section
/-!
DEFINITION. The control commands NOP and SRESET (44_control.md R107, R109).
-/

namespace Sys2Proof.Machine

/-- NOP: nothing but ERR <- OK at completion (44_control.md R107). -/
def execNop (s : State) : Host.Outcome State Fault Refusal := complete s

/-- SRESET: soft reset of everything but DMEM (44_control.md R109). -/
def execSreset (s : State) : Host.Outcome State Fault Refusal := complete (softReset s)

end Sys2Proof.Machine
end

