-- ==== Sys2Proof/Machine/FilenameEncoder.lean ====
section
/-!
DEFINITION. The filename encoder and ENCFN (40_filename_encoder.md R76 to R84).
-/

namespace Sys2Proof.Machine

/-- A separator is `/` or `\` (40_filename_encoder.md R76). -/
def isSeparator (b : Byte) : Bool := b == 0x2F || b == 0x5C

/-- The index of the last byte that satisfies `p`, none where the rules' maximum is −1. -/
def lastIndex (p : Byte → Bool) : List Byte → Option Nat
  | [] => none
  | b :: bs =>
    match lastIndex p bs with
    | some k => some (k + 1)
    | none => if p b then some 0 else none

/-- The final component: what follows the last separator (40_filename_encoder.md R76). -/
def finalComponent (p : List Byte) : List Byte :=
  match lastIndex isSeparator p with
  | none => p
  | some k => p.drop (k + 1)

/-- Name and extension: the parts before and after the last dot (40_filename_encoder.md R78). -/
def splitName (comp : List Byte) : List Byte × List Byte :=
  match lastIndex (fun b => b == 0x2E) comp with
  | none => (comp, [])
  | some d => (comp.take d, comp.drop (d + 1))

/-- `upper(b)` (40_filename_encoder.md R80). -/
def upper (b : Byte) : Byte := if 0x61 ≤ b ∧ b ≤ 0x7A then b - 0x20 else b

/-- `Fit(s, W)`: the first W bytes, upper-cased, padded with spaces to W (40_filename_encoder.md R81). -/
def fit (l : List Byte) (width : Nat) : List Byte :=
  (l.take width).map upper ++ List.replicate (width - min width l.length) 0x20

/-- `Encode(p)`: the 11 bytes of the name, none for InvalidFilename (40_filename_encoder.md R82; the ASCII
check R77, the empty base name R79). -/
def encodeName (p : List Byte) : Option (List Byte) :=
  let comp := finalComponent p
  if comp.any (fun b => decide (0x80 ≤ b)) then none
  else
    let parts := splitName comp
    if parts.1.length = 0 then none
    else some (fit parts.1 Config.nameLen ++ fit parts.2 Config.extLen)

/-- ENCFN: encode the path in PATH into FNAME (40_filename_encoder.md R84; the length bound R83). -/
def execEncfn (s : State) : Host.Outcome State Fault Refusal :=
  if s.pathLen.toNat > Config.pathMax then raise .rangeError s
  else
    match encodeName (pathBytes s.toHb) with
    | none => raise .invalidFilename s
    | some r => complete (setFname (arrayOf 11 r) s)

end Sys2Proof.Machine
end

