-- ==== Sys2Proof/Machine/HeaderBuilder.lean ====
section
/-!
DEFINITION. The header builder and BUILDHDR (43_header_builder.md R102 to R106).
-/

namespace Sys2Proof.Machine

/-- `Header(fname, n) = [0x01] ++ fname ++ le16(n)` (43_header_builder.md R102). -/
def headerBytes (fname : Vector Byte 11) (n : Word) : List Byte :=
  [Config.startMarker] ++ fname.toList ++ le16 n

/-- The name bytes of a header, `HEADER[1..12)` (43_header_builder.md R106). -/
def headerName (h : Vector Byte 14) : List Byte := (h.toList.drop 1).take 11

/-- The block count of a header, `HEADER[12] + 256 · HEADER[13]` (43_header_builder.md R106). -/
def headerCount (h : Vector Byte 14) : Nat := h[12].toNat + 256 * h[13].toNat

/-- BUILDHDR: assemble the header from FNAME and CNT into HEADER (43_header_builder.md R105; the count check R104). -/
def execBuildhdr (s : State) : Host.Outcome State Fault Refusal :=
  if s.status.fnValid = false then raise .sequenceError s
  else if s.cnt.toNat > Config.maxBlocks then raise .invalidBlockCount s
  else complete (setHeader (arrayOf 14 (headerBytes s.fname s.cnt)) s)

end Sys2Proof.Machine
end

