-- ==== Sys2Proof/Machine/Segmenter.lean ====
section
/-!
DEFINITION. The frame segmenter, SEGMENT and GETBLK (42_segmenter.md R91 to R97).
-/

namespace Sys2Proof.Machine

/-- `BlockCount(L) = (L + 127) div 128`, exact (42_segmenter.md R91). -/
def blockCount (len : Nat) : Nat := (len + 127) / 128

/-- The padded length of a file of `len` bytes (42_segmenter.md R92). -/
def paddedLength (len : Nat) : Nat := blockCount len * Config.blockSize

/-- The byte of the padded file at address `a`: DMEM below the length, 0x00 at or above it, where DMEM is never
read (42_segmenter.md R94). -/
def segmentByte (m : Memory) (len a : Nat) : Except Fault Byte :=
  if a < len then memRead m a else .ok 0x00

/-- `Segment(i, L)`, 128 bytes (42_segmenter.md R94). -/
def segmentBytes (m : Memory) (len i : Nat) : Except Fault (List Byte) :=
  gather (segmentByte m len) (128 * i) Config.blockSize

/-- SEGMENT: compute the block count of the file (42_segmenter.md R95). -/
def execSegment (s : State) : Host.Outcome State Fault Refusal :=
  if blockCount s.dataLen.toNat > Config.maxBlocks then raise .fileTooLarge s
  else complete (setCount (BitVec.ofNat 32 (blockCount s.dataLen.toNat)) s)

/-- GETBLK i: load segment i into BLOCK (42_segmenter.md R96). -/
def execGetblk (i : Nat) (s : State) : Host.Outcome State Fault Refusal :=
  if s.status.segValid = false then raise .sequenceError s
  else if i ≥ s.cnt.toNat then raise .rangeError s
  else
    match segmentBytes s.dmem s.dataLen.toNat i with
    | .error f => .fault f
    | .ok bytes => complete (setBlock (arrayOf 128 bytes) (BitVec.ofNat 16 i) s)

end Sys2Proof.Machine
end

