-- ==== Sys2Proof/Machine/Dispatch.lean ====
section
/-!
DEFINITION. The dispatch of the engine's completion function (30_encoding.md R70): one arm per command.
-/

namespace Sys2Proof.Machine

def exec (i : Instr) (s : State) : Host.Outcome State Fault Refusal :=
  match i with
  | .nop => Sys2Proof.Machine.execNop s
  | .encfn => Sys2Proof.Machine.execEncfn s
  | .csumblk => Sys2Proof.Machine.execCsumblk s
  | .csumrng => Sys2Proof.Machine.execCsumrng s
  | .segment => Sys2Proof.Machine.execSegment s
  | .getblk index => Sys2Proof.Machine.execGetblk index s
  | .buildhdr => Sys2Proof.Machine.execBuildhdr s
  | .sreset => Sys2Proof.Machine.execSreset s

end Sys2Proof.Machine
end

