-- ==== Sys2Proof/Machine/Engine.lean ====
section
/-!
DEFINITION. The engine's completion step (10_state.md R18, 30_encoding.md R70).
-/

namespace Sys2Proof.Machine

/-- `Exec(w, s)`: decode the word; an illegal one completes with IllegalCommand and no other effect
(30_encoding.md R68 to R70). -/
def execWord (w : Word) (s : State) : Host.Outcome State Fault Refusal :=
  match decode w with
  | .instr i => exec i s
  | .illegal _ => raise .illegalCommand s

/-- The engine completes the command whose word is `w` (10_state.md R18). -/
def engineStep (w : Word) (s : State) : Host.Outcome State Fault Refusal :=
  onNext afterCompletion (execWord w s)

/-- A command word put in flight with no move before its completion (log entry 5). -/
def loadCommand (w : Word) (s : State) : State :=
  { s with latched := some w, latency := 0 :: s.latency }

end Sys2Proof.Machine
end

