-- ==== Sys2Proof/Machine/HostPort.lean ====
section
/-!
DEFINITION. What the outside world does to HB, one move at a time: the host's accesses to REG space and DMEM
(20_memory.md R45 to R55), its polling (R59), and the hardware resets (70_reset_and_hazards.md R128, R129).
A host-duty violation is refused (R133 to R135; log entry 7).
-/

namespace Sys2Proof.Machine

/-- The host writes `v` at REG offset `off` (20_memory.md R50 to R52, 70_reset_and_hazards.md R133 to R135). -/
def hostWrite (off : BitVec 12) (v : Word) (s : State) : Host.Outcome State Fault Refusal :=
  if s.resetPin then .refused .accessDuringReset
  else if regAligned off = false then .refused .regAccessForm
  else if busy s.toHb then
    .refused (if regLoc off = .cmd then .cmdWriteWhileBusy else .writeWhileBusy)
  else .next (nextDraw (writeReg (regLoc off) v s))

/-- A value a host read returned is kept for the host (log entry 5). -/
def observe (o : Seen) (s : State) : State := { s with seen := o :: s.seen }

/-- The host reads the word at REG offset `off`; no read has a side effect on HB (20_memory.md R52, 10_state.md R25). -/
def hostRead (off : BitVec 12) (s : State) : Host.Outcome State Fault Refusal :=
  if s.resetPin then .refused .accessDuringReset
  else if regAligned off = false then .refused .regAccessForm
  else .next (observe (.reg off (readReg s.toHb (regLoc off))) s)

/-- An access narrower than 32 bits is not admitted (20_memory.md R50). -/
def hostNarrow (s : State) : Host.Outcome State Fault Refusal :=
  if s.resetPin then .refused .accessDuringReset else .refused .regAccessForm

/-- The host writes DMEM byte `a`; without storage there it is ignored (20_memory.md R53). -/
def hostWriteByte (a : BitVec 23) (b : Byte) (s : State) : Host.Outcome State Fault Refusal :=
  if s.resetPin then .refused .accessDuringReset
  else if busy s.toHb then .refused .writeWhileBusy
  else if a.toNat < Config.dmemSize then
    .next (nextDraw { s with dmem := Memory.store s.dmem a.toNat b })
  else .next (nextDraw s)

/-- The byte the host reads at DMEM address `a`: the last written, a free value where none was, 0 where there is no
storage (20_memory.md R54; log entry 2). -/
def dmemByte (m : Memory) (draws a : Nat) : Byte :=
  if a < Config.dmemSize then
    match Memory.lookup m a with
    | some b => b
    | none => Config.unwrittenByte draws a
  else 0x00

/-- The host reads DMEM byte `a` (20_memory.md R54). -/
def hostReadByte (a : BitVec 23) (s : State) : Host.Outcome State Fault Refusal :=
  if s.resetPin then .refused .accessDuringReset
  else .next (observe (.dmem a (dmemByte s.dmem s.draws a.toNat)) s)

/-- `POLL`: one read of STATUS, and again until it shows BUSY = 0 (30_encoding.md R74, 20_memory.md R59). -/
def hostPoll (s : State) : Host.Outcome State Fault Refusal :=
  if s.resetPin then .refused .accessDuringReset
  else
    let t := observe (.reg 0x004 (statusWord s.toHb)) s
    .next (if busy s.toHb then { t with moves := .poll :: t.moves } else t)

/-- A command in flight is abandoned: its latency is used up, none of its writes is committed
(70_reset_and_hazards.md R129). -/
def abandon (s : State) : State := if busy s.toHb then dropLatency s else s

/-- The reset input is asserted (70_reset_and_hazards.md R128, R129). -/
def resetAssert (s : State) : State :=
  nextDraw (softReset { abandon s with resetPin := true })

/-- The reset input is released; HB starts nothing of its own (70_reset_and_hazards.md R128). -/
def resetRelease (s : State) : State := { s with resetPin := false }

/-- Power-on: the reset values, and every DMEM byte unwritten (70_reset_and_hazards.md R128). -/
def powerOn (s : State) : State :=
  nextDraw { abandon s with toHb := Hb.reset }

/-- One move of the outside world. -/
def performMove (m : Move) (s : State) : Host.Outcome State Fault Refusal :=
  match m with
  | .wr off v => hostWrite off v s
  | .rd off => hostRead off s
  | .wrb a b => hostWriteByte a b s
  | .rdb a => hostReadByte a s
  | .poll => hostPoll s
  | .narrow _ => hostNarrow s
  | .powerOn => .next (powerOn s)
  | .resetAssert => .next (resetAssert s)
  | .resetRelease => .next (resetRelease s)

/-- The outside world makes its next move; with none left HB stays as it is (log entry 6). -/
def worldStep (s : State) : Host.Outcome State Fault Refusal :=
  match s.moves with
  | [] => .next s
  | m :: ms => performMove m { s with moves := ms }

end Sys2Proof.Machine
end

