-- ==== Sys2Proof/Machine/Step.lean ====
section
/-!
DEFINITION. One step of the machine: the engine completes the command in flight, or the outside world makes its
next move (10_state.md R18, 20_memory.md R58).
-/

namespace Sys2Proof.Machine

/-- While a command is in flight the outside world makes as many moves as its latency says, then the engine
completes it; while none is, the outside world has the move (10_state.md R18; log entry 4). -/
def step (s : State) : Host.Outcome State Fault Refusal :=
  match s.latched with
  | none => worldStep s
  | some w =>
    match s.latency with
    | (k + 1) :: rest => worldStep { s with latency := k :: rest }
    | _ => engineStep w s

/-- The state with a command word in flight that the very next step completes (log entry 5). -/
def State.withFetchWord (s : State) (nbits w : Nat) : State :=
  loadCommand (BitVec.ofNat 32 (w % 2 ^ nbits)) s

end Sys2Proof.Machine
end

