-- ==== Sys2Proof/Machine/Assembler.lean ====
section
/-!
DEFINITION. The spellings of host programs: command syntax (30_encoding.md R72), the pseudo-operations and their
expansions (R74), and the host's standard sequence for one file (70_reset_and_hazards.md R131).
-/

namespace Sys2Proof.Machine

/-- A decimal digit's value. -/
def decimalDigit (c : Char) : Option Nat :=
  if 48 ≤ c.toNat ∧ c.toNat ≤ 57 then some (c.toNat - 48) else none

/-- A hexadecimal digit's value, in either case (log entry 14). -/
def hexDigit (c : Char) : Option Nat :=
  if 48 ≤ c.toNat ∧ c.toNat ≤ 57 then some (c.toNat - 48)
  else if 97 ≤ c.toNat ∧ c.toNat ≤ 102 then some (c.toNat - 87)
  else if 65 ≤ c.toNat ∧ c.toNat ≤ 70 then some (c.toNat - 55)
  else none

/-- The value of a sequence of digits after the value `acc` of the digits before it. -/
def digitsValue (base : Nat) (digit : Char → Option Nat) (acc : Nat) : List Char → Option Nat
  | [] => some acc
  | c :: cs =>
    match digit c with
    | none => none
    | some d => digitsValue base digit (acc * base + d) cs

/-- A number: decimal, or hexadecimal after `0x` (30_encoding.md R72). -/
def parseNumber : List Char → Option Nat
  | [] => none
  | ['0', 'x'] => none
  | '0' :: 'x' :: ds => digitsValue 16 hexDigit 0 ds
  | ds => digitsValue 10 decimalDigit 0 ds

/-- The commands whose mnemonic takes no operand (30_encoding.md R72). -/
def plainMnemonic (name : List Char) : Option Instr :=
  if name = ['N', 'O', 'P'] then some .nop
  else if name = ['E', 'N', 'C', 'F', 'N'] then some .encfn
  else if name = ['C', 'S', 'U', 'M', 'B', 'L', 'K'] then some .csumblk
  else if name = ['C', 'S', 'U', 'M', 'R', 'N', 'G'] then some .csumrng
  else if name = ['S', 'E', 'G', 'M', 'E', 'N', 'T'] then some .segment
  else if name = ['B', 'U', 'I', 'L', 'D', 'H', 'D', 'R'] then some .buildhdr
  else if name = ['S', 'R', 'E', 'S', 'E', 'T'] then some .sreset
  else none

/-- The instruction a spelling stands for, none where the assembler rejects it (30_encoding.md R72; log entry 14). -/
def parseCommand (line : List Char) : Option Instr :=
  match line.dropWhile (fun c => c != ' ') with
  | [] => plainMnemonic line
  | _ :: operand =>
    if line.takeWhile (fun c => c != ' ') = ['G', 'E', 'T', 'B', 'L', 'K'] then
      match parseNumber operand with
      | none => none
      | some n => if n < 65536 then some (.getblk n) else none
    else none

/-- The command word of a spelling (30_encoding.md R72). -/
def assemble (line : List Char) : Option Word := (parseCommand line).map encode

/-- `CMD m` (30_encoding.md R74). -/
def hostCmd (i : Instr) : List Move := [.wr 0x000 (encode i)]

/-- `RUN m`: `CMD m` then `POLL` (30_encoding.md R74). -/
def hostRun (i : Instr) : List Move := hostCmd i ++ [.poll]

/-- Bytes 4k..4k+3 of a text as a little-endian word, zero beyond its end (30_encoding.md R74, 20_memory.md R49). -/
def textWord (text : List Byte) (k : Nat) : Word :=
  text.getD (4 * k + 3) 0 ++ text.getD (4 * k + 2) 0 ++ text.getD (4 * k + 1) 0 ++ text.getD (4 * k) 0

/-- `WRPATH "text"` (30_encoding.md R74; log entry 16). -/
def hostWrPath (text : List Byte) : List Move :=
  (List.range ((text.length + 3) / 4)).map
      (fun k => .wr (BitVec.ofNat 12 (0x100 + 4 * k)) (textWord text k)) ++
    [.wr 0x010 (BitVec.ofNat 32 text.length)]

/-- `WRDATA d` (30_encoding.md R74). DESIGN CHOICE: R74 gives no limit; the address is taken modulo 2^23 and the
length modulo 2^32 (log entry 16). -/
def hostWrData (d : List Byte) : List Move :=
  (List.range d.length).map (fun a => .wrb (BitVec.ofNat 23 a) (d.getD a 0)) ++
    [.wr 0x008 (BitVec.ofNat 32 d.length)]

/-- Reads of `n` words of a window from an offset. -/
def hostReadWindow (base n : Nat) : List Move :=
  (List.range n).map fun k => .rd (BitVec.ofNat 12 (base + 4 * k))

/-- One round of the block loop: GETBLK i, CSUMBLK, the checksum and the segment read
(70_reset_and_hazards.md R131 step 7). -/
def hostBlockRound (i : Nat) : List Move :=
  hostRun (.getblk i) ++ hostRun .csumblk ++ [.rd 0x01C] ++ hostReadWindow 0x280 32

/-- The host's standard sequence for one file, as far as HB sees it (70_reset_and_hazards.md R131; log entries 16, 17). -/
def standardSequence (path data : List Byte) : List Move :=
  hostWrPath path ++ hostWrData data ++ hostRun .encfn ++ hostRun .segment ++ hostRun .buildhdr ++
    hostReadWindow 0x210 4 ++
    (List.range (blockCount data.length)).flatMap hostBlockRound ++ hostRun .sreset

end Sys2Proof.Machine
end

