-- ==== Sys2Proof/Machine/Frame.lean ====
section
/-!
DEFINITION. The wire frame: the byte sequence the host sends, made of HB's outputs (42_segmenter.md R99, R100).
HB transmits nothing; this is what its outputs form.
-/

namespace Sys2Proof.Machine

/-- `Segment(i, L) ++ … ++ Segment(i+n−1, L)` (42_segmenter.md R99). -/
def frameBody (m : Memory) (len i : Nat) : Nat → Except Fault (List Byte)
  | 0 => .ok []
  | n + 1 =>
    match segmentBytes m len i with
    | .error e => .error e
    | .ok seg =>
      match frameBody m len (i + 1) n with
      | .error e => .error e
      | .ok body => .ok (seg ++ body)

/-- The frame `HEADER ++ Segment(0, L) ++ … ++ Segment(CNT−1, L)`, for a state with HDR_VALID and SEG_VALID
(42_segmenter.md R99). -/
def frame (h : Hb) : Except Fault (List Byte) :=
  match frameBody h.dmem h.dataLen.toNat 0 h.cnt.toNat with
  | .error e => .error e
  | .ok body => .ok (h.header.toList ++ body)

/-- The frame's length, `14 + 128 × CNT` (42_segmenter.md R100). -/
def frameLength (h : Hb) : Nat := Config.headerLen + Config.blockSize * h.cnt.toNat

end Sys2Proof.Machine
end

