-- ==== Sys2Proof/Safety.lean ====
section
/-!
DEFINITION. The terms claims use: the invariant of HB (10_state.md R40 and the model's own clauses), the bytes the
file has written, a safe step and the end of a run (70_reset_and_hazards.md R142).
-/

namespace Sys2Proof.Machine

/-- "ASCII, no lowercase": in 0x00–0x7F and not in 0x61–0x7A (10_state.md R40). -/
def asciiNoLower (b : Byte) : Prop := b.toNat < 0x80 ∧ ¬ (0x61 ≤ b.toNat ∧ b.toNat ≤ 0x7A)

/-- The invariant every step keeps: the clauses of 10_state.md R40, DMEM's canonical form, and HB held at reset while
the reset input is asserted (70_reset_and_hazards.md R129). -/
structure State.Inv (s : State) : Prop where
  /-- DMEM is in canonical form (the model's own). -/
  dmemWf : Memory.wf s.dmem
  /-- SEG_VALID = 1 implies CNT = ceil(DATA_LEN / 128) ≤ 65535 (R40). -/
  segCount : s.status.segValid = true →
    s.cnt.toNat = (s.dataLen.toNat + 127) / 128 ∧ s.cnt.toNat ≤ 65535
  /-- FN_VALID = 1 implies that every byte of FNAME is ASCII and no lower-case letter (R40). -/
  fnameAscii : s.status.fnValid = true → ∀ b ∈ s.fname.toList, asciiNoLower b
  /-- HDR_VALID = 1 implies HEADER[0] = 0x01 (R40). -/
  headerMarker : s.status.hdrValid = true → s.header[0] = 0x01
  /-- BLK_VALID = 1 implies BLK_IDX < 65535 (R40). -/
  blkIdxBound : s.status.blkValid = true → s.blkIdx.toNat < 65535
  /-- ERRSEEN = 0 implies that the last command completed since reset succeeded (R40). -/
  errSeenSticky : s.status.errSeen = false → s.status.err = .ok
  /-- While the reset input is asserted HB holds its reset values, DMEM aside (R129). -/
  heldInReset : s.resetPin = true → s.toHb = { Hb.reset with dmem := s.dmem }

/-- Bytes `a` to `a+n−1` of DMEM have storage and are written (10_state.md R42). -/
def bytesWritten (m : Memory) (a n : Nat) : Prop :=
  ∀ k, k < n → a + k < Config.dmemSize ∧ (Memory.lookup m (a + k)).isSome = true

/-- The state a command that raised `e` leaves: STATUS.ERR is `e`, ERRSEEN is 1, BUSY is 0, all else as it was
(60_exceptions.md R113). -/
def errorResult (e : ErrCode) (s : State) : State :=
  { s with status := { s.status with err := e, errSeen := true }, latched := none }

/-- The outcome of a command's checks, made in the order of 60_exceptions.md R114: SequenceError, RangeError, then
the component's own error (R115). -/
def firstError (i : Instr) (s : State) : ErrCode :=
  match i with
  | .nop => .ok
  | .encfn =>
    if 256 < s.pathLen.toNat then .rangeError
    else if encodeName (s.path.toList.take s.pathLen.toNat) = none then .invalidFilename
    else .ok
  | .csumblk => if s.status.blkValid = false then .sequenceError else .ok
  | .csumrng => if 8388480 < s.rbase.toNat + s.rlen.toNat then .rangeError else .ok
  | .segment => if 8388480 < s.dataLen.toNat then .fileTooLarge else .ok
  | .getblk n =>
    if s.status.segValid = false then .sequenceError
    else if s.cnt.toNat ≤ n then .rangeError
    else .ok
  | .buildhdr =>
    if s.status.fnValid = false then .sequenceError
    else if 65535 < s.cnt.toNat then .invalidBlockCount
    else .ok
  | .sreset => .ok

/-- A directory part: empty, or ending in a separator `/` or `\` (40_filename_encoder.md R76). -/
def isDirectoryPart (dir : List Byte) : Prop :=
  dir = [] ∨ ∃ d b, dir = d ++ [b] ∧ (b = 0x2F ∨ b = 0x5C)

/-- No byte is a separator (40_filename_encoder.md R76). -/
def noSeparator (l : List Byte) : Prop := ∀ b ∈ l, b ≠ 0x2F ∧ b ≠ 0x5C

/-- The code of a byte upper-cased (40_filename_encoder.md R80). -/
def upperCode (b : Byte) : Nat :=
  if 0x61 ≤ b.toNat ∧ b.toNat ≤ 0x7A then b.toNat - 0x20 else b.toNat

/-- Byte k of the field a sequence is fitted to: its k-th byte upper-cased, a space past its end
(40_filename_encoder.md R81). -/
def fieldCode (l : List Byte) (k : Nat) : Nat := if h : k < l.length then upperCode l[k] else 0x20

/-- The character of a hexadecimal digit, in upper case where its mark says so (30_encoding.md R72). -/
def hexChar (d : Nat × Bool) : Char := if d.2 then (Nat.digitChar d.1).toUpper else Nat.digitChar d.1

/-- `v` is bytes 4k to 4k+3 of `l` little-endian, a byte at or beyond its end 0 (20_memory.md R49). -/
def wordOfBytes (l : List Byte) (k : Nat) (v : Word) : Prop :=
  v.toNat = (l.getD (4 * k) 0).toNat + 256 * (l.getD (4 * k + 1) 0).toNat + 65536 * (l.getD (4 * k + 2) 0).toNat +
    16777216 * (l.getD (4 * k + 3) 0).toNat

/-- A step that neither faults nor is refused. -/
def safeStep (s : State) : Prop := ∃ t, step s = .next t

/-- A run has ended: the host has issued its last operation and BUSY = 0 (70_reset_and_hazards.md R142). -/
def runEnded (s : State) : Prop := s.moves = [] ∧ busy s.toHb = false

/-- The engine completes the command in flight at the next step: no move comes before it (log entry 4). -/
def engineDue (s : State) : Prop := s.latency.headD 0 = 0

/-- The next step completes the command word `w` (10_state.md R18). -/
def completesWord (s : State) (w : Word) : Prop := s.latched = some w ∧ engineDue s

/-- The next step completes the instruction `i`. -/
def completes (s : State) (i : Instr) : Prop := ∃ w, completesWord s w ∧ decode w = .instr i

/-- A move that is a hardware reset event (70_reset_and_hazards.md R128). -/
def Move.isReset : Move → Bool
  | .powerOn | .resetAssert => true
  | .wr _ _ | .rd _ | .wrb _ _ | .rdb _ | .poll | .narrow _ | .resetRelease => false

/-- The next step is a hardware reset event (70_reset_and_hazards.md R128). -/
def resetsNext (s : State) : Prop :=
  (s.latched = none ∨ ¬ engineDue s) ∧ ∃ m ms, s.moves = m :: ms ∧ m.isReset = true

/-- The next step is the host's write of `v` at REG offset `off`, no command being in flight. -/
def writesNext (s : State) (off : BitVec 12) (v : Word) : Prop :=
  s.latched = none ∧ s.resetPin = false ∧ ∃ ms, s.moves = .wr off v :: ms

end Sys2Proof.Machine
end

