-- ==== Sys2Proof/Certificates/Slice0/Obligations.lean ====
section
/-!
DEFINITION. The statements for the provers, from the numbered rules of spec/.
-/

open Sys2Proof Sys2Proof.Machine

/-! ### Encoding (30_encoding.md) -/

/-- Every well-formed instruction's word decodes to it, its index at every value 0 to 65535 (R65, R67, R72). -/
def Obligations.DecodeOfEncodeIsTheInstruction : Prop :=
  ∀ i : Instr, i.wellFormed = true → decode (encode i) = .instr i

/-- A word that decodes to an instruction is that instruction's word, and the instruction is well-formed (R65, R67). -/
def Obligations.EncodeOfDecodedIsTheWord : Prop :=
  ∀ (w : Word) (i : Instr), decode w = .instr i → i.wellFormed = true ∧ encode i = w

/-- A word decodes to an instruction exactly when its masked bits match that row of the opcode map and its bits 23:8
are GETBLK's index; so at most one row matches a word (R65, R67). -/
def Obligations.WordSelectsItsTableRow : Prop :=
  ∀ (w : Word) (i : Instr),
    (decode w = .instr i ↔
      w &&& rowMask i = rowMatch i ∧ ∀ n, i = .getblk n → n = w.toNat / 256 % 65536) ∧
    ∀ j : Instr, w &&& rowMask i = rowMatch i → w &&& rowMask j = rowMatch j →
      rowMatch i = rowMatch j ∧ rowMask i = rowMask j

/-- A word with a reserved OP, with RSV ≠ 0, or with IMM ≠ 0 on an OP other than 0x05, and equally a word that
matches no row, completes with IllegalCommand and no other effect; and a word that matches a row is none of these
(R68, R69). -/
def Obligations.ReservedWordsAreIllegalCommands : Prop :=
  ∀ (w : Word) (s : State),
    (((0x07 ≤ w.toNat % 256 ∧ w.toNat % 256 ≤ 0x0E) ∨ 0x10 ≤ w.toNat % 256 ∨ w.toNat / 2 ^ 24 ≠ 0 ∨
        (w.toNat / 256 % 65536 ≠ 0 ∧ w.toNat % 256 ≠ 0x05)) ↔
      ∀ i : Instr, w &&& rowMask i ≠ rowMatch i) ∧
    ((∀ i : Instr, w &&& rowMask i ≠ rowMatch i) → execWord w s = .next (errorResult .illegalCommand s))

/-- The reference encodings (R75), each spelling as its instruction, each word both encoded and decoded. -/
def Obligations.ReferenceEncodings : Prop :=
  (encode .nop = 0x00000000 ∧ decode 0x00000000 = .instr .nop) ∧
  (encode .encfn = 0x00000001 ∧ decode 0x00000001 = .instr .encfn) ∧
  (encode .csumblk = 0x00000002 ∧ decode 0x00000002 = .instr .csumblk) ∧
  (encode .csumrng = 0x00000003 ∧ decode 0x00000003 = .instr .csumrng) ∧
  (encode .segment = 0x00000004 ∧ decode 0x00000004 = .instr .segment) ∧
  (encode (.getblk 0) = 0x00000005 ∧ decode 0x00000005 = .instr (.getblk 0)) ∧
  (encode (.getblk 3) = 0x00000305 ∧ decode 0x00000305 = .instr (.getblk 3)) ∧
  (encode (.getblk 65535) = 0x00FFFF05 ∧ decode 0x00FFFF05 = .instr (.getblk 65535)) ∧
  (encode .buildhdr = 0x00000006 ∧ decode 0x00000006 = .instr .buildhdr) ∧
  (encode .sreset = 0x0000000F ∧ decode 0x0000000F = .instr .sreset) ∧
  decode 0x00000007 = .illegal .reservedOpcode ∧
  decode 0x01000001 = .illegal .reservedField ∧
  decode 0x00000101 = .illegal .immNotZero

/-- What the assembler accepts, and nothing else: each of the seven plain mnemonics alone, giving its reference word,
and GETBLK with a decimal or `0x` operand of value n from 0 to 65535, giving n × 256 + 5; an operand out of range, or an
operand on another mnemonic, is rejected; an accepted spelling's word decodes to the well-formed instruction it spells
(R72). The one space, the leading zeros and the hexadecimal digits in either case are the model's choice
(log entry 14). -/
def Obligations.AssembledWordsDecodeToTheirCommand : Prop :=
  (∀ (line : List Char) (w : Word), assemble line = some w ↔
    ((line = "NOP".toList ∧ w = 0x00000000) ∨ (line = "ENCFN".toList ∧ w = 0x00000001) ∨
        (line = "CSUMBLK".toList ∧ w = 0x00000002) ∨ (line = "CSUMRNG".toList ∧ w = 0x00000003) ∨
        (line = "SEGMENT".toList ∧ w = 0x00000004) ∨ (line = "BUILDHDR".toList ∧ w = 0x00000006) ∨
        (line = "SRESET".toList ∧ w = 0x0000000F)) ∨
      (∃ ds : List Nat, ds ≠ [] ∧ (∀ d ∈ ds, d < 10) ∧ Nat.ofDigits 10 ds.reverse < 65536 ∧
        line = "GETBLK ".toList ++ ds.map Nat.digitChar ∧ w.toNat = Nat.ofDigits 10 ds.reverse * 256 + 5) ∨
      ∃ ds : List (Nat × Bool), ds ≠ [] ∧ (∀ d ∈ ds, d.1 < 16) ∧
        Nat.ofDigits 16 (ds.map Prod.fst).reverse < 65536 ∧ line = "GETBLK 0x".toList ++ ds.map hexChar ∧
        w.toNat = Nat.ofDigits 16 (ds.map Prod.fst).reverse * 256 + 5) ∧
  (∀ ds : List Nat, (∀ d ∈ ds, d < 10) → 65536 ≤ Nat.ofDigits 10 ds.reverse →
    assemble ("GETBLK ".toList ++ ds.map Nat.digitChar) = none) ∧
  (∀ ds : List (Nat × Bool), (∀ d ∈ ds, d.1 < 16) → 65536 ≤ Nat.ofDigits 16 (ds.map Prod.fst).reverse →
    assemble ("GETBLK 0x".toList ++ ds.map hexChar) = none) ∧
  (∀ name operand : List Char, ' ' ∉ name → name ≠ "GETBLK".toList → assemble (name ++ ' ' :: operand) = none) ∧
  ∀ (line : List Char) (w : Word), assemble line = some w →
    ∃ i, parseCommand line = some i ∧ i.wellFormed = true ∧ w = encode i ∧ decode w = .instr i

/-! ### The step (10_state.md R18) -/

/-- The step that is due to complete a command is that command's meaning, or IllegalCommand for a word that decodes
to none, with its latency used up and the draw counter advanced. -/
def Obligations.StepRunsTheDecodedCommand : Prop :=
  ∀ (s : State) (w : Word), s.latched = some w → s.latency.headD 0 = 0 →
    (∀ i, decode w = .instr i →
      step s =
        match exec i s with
        | .next t => .next { t with latency := t.latency.tail, draws := t.draws + 1 }
        | .fault f => .fault f
        | .refused r => .refused r) ∧
    ∀ r, decode w = .illegal r →
      step s = .next { errorResult .illegalCommand s with latency := s.latency.tail, draws := s.draws + 1 }

/-- A host write of CMD while BUSY = 0 starts the command: it is latched, BUSY reads 1, and nothing else of HB
changes (R18, R23). -/
def Obligations.CmdWriteStartsTheCommand : Prop :=
  ∀ (s : State) (w : Word) (ms : List Move), s.latched = none → s.resetPin = false →
    s.moves = .wr 0x000 w :: ms →
    step s = .next { s with latched := some w, moves := ms, draws := s.draws + 1 } ∧
      busy { s with latched := some w }.toHb = true

/-- BUSY is set only by a host write of CMD, and cleared only by the completion of its command, by power-on or by the
reset input (R25). -/
def Obligations.BusyFollowsCommandStartAndEnd : Prop :=
  ∀ s t : State, step s = .next t →
    (busy s.toHb = false → busy t.toHb = true → ∃ w, writesNext s 0x000 w ∧ t.latched = some w) ∧
    (busy s.toHb = true → busy t.toHb = false → (∃ w, completesWord s w) ∨ resetsNext s)

/-- While a command is in flight and the step neither completes it nor is a hardware reset, HB's whole state, the
words a host reads among it, stays what it was when the command started (R25, R55). -/
def Obligations.NothingOfACommandShowsBeforeCompletion : Prop :=
  ∀ s t : State, step s = .next t → busy s.toHb = true → (¬ ∃ w, completesWord s w) → ¬ resetsNext s →
    t.toHb = s.toHb ∧ ∀ loc, readReg t.toHb loc = readReg s.toHb loc

/-- Every started command eventually completes (R140): a host that polls reads BUSY = 1 as often as the command's
latency says, and then the step is the command's completion. -/
def Obligations.PolledCommandCompletes : Prop :=
  ∀ (k : Nat) (s : State) (w : Word) (rest : List Nat) (ms : List Move),
    s.latched = some w → s.latency = k :: rest → s.resetPin = false → s.moves = .poll :: ms →
    Host.Core.run Sys2Proof.core (k + 1) s =
      engineStep w
        { s with latency := 0 :: rest, seen := List.replicate k (.reg 0x004 (statusWord s.toHb)) ++ s.seen }

/-- At the end of a run the machine stays as it is: HB starts no activity of its own (70_reset_and_hazards.md R128,
R142; an idle step that changes nothing is the model's choice, log entry 6). -/
def Obligations.EndedRunStaysAsItIs : Prop :=
  ∀ s : State, runEnded s → step s = .next s

/-! ### NOP and SRESET (44_control.md) -/

/-- NOP completes from every state, and sets ERR to OK and nothing else (R107). -/
def Obligations.NopOnlySetsErrOk : Prop :=
  ∀ s : State, exec .nop s = .next { s with status := { s.status with err := .ok }, latched := none }

/-- SRESET completes from every state with HB at its reset values and DMEM unchanged (R109). -/
def Obligations.SresetRestoresResetValues : Prop :=
  ∀ s : State, exec .sreset s = .next { s with toHb := { Hb.reset with dmem := s.dmem } }

/-! ### The filename encoder (40_filename_encoder.md) -/

/-- ENCFN on a path of at most 256 bytes whose final component is ASCII with a name part that is not empty: the name
field is the name's first 8 bytes upper-cased and padded with spaces, the extension field the same to 3; the split is
at the last dot; nothing but FNAME and STATUS changes (R76 to R84). -/
def Obligations.EncfnWritesTheEncodedName : Prop :=
  ∀ (s : State) (dir comp name ext : List Byte),
    s.pathLen.toNat ≤ 256 → s.path.toList.take s.pathLen.toNat = dir ++ comp →
    isDirectoryPart dir → noSeparator comp → (∀ b ∈ comp, b.toNat < 0x80) → name ≠ [] →
    ((comp = name ++ 0x2E :: ext ∧ 0x2E ∉ ext) ∨ (comp = name ∧ ext = [] ∧ 0x2E ∉ name)) →
    ∃ v : Vector Byte 11,
      exec .encfn s =
        .next { s with fname := v, status := { s.status with fnValid := true, err := .ok }, latched := none } ∧
      (∀ k (h : k < 8), v[k].toNat = fieldCode name k) ∧
      ∀ k (h : k < 3), v[8 + k].toNat = fieldCode ext k

/-- ENCFN raises RangeError for PATH_LEN > 256, and InvalidFilename for a final component with a byte of 0x80 or
above, an empty one, or one whose last dot is its first byte (R77, R79, R83). -/
def Obligations.EncfnErrors : Prop :=
  ∀ s : State,
    (256 < s.pathLen.toNat → exec .encfn s = .next (errorResult .rangeError s)) ∧
    ∀ dir comp : List Byte, s.pathLen.toNat ≤ 256 → s.path.toList.take s.pathLen.toNat = dir ++ comp →
      isDirectoryPart dir → noSeparator comp →
      ((∃ b ∈ comp, 0x80 ≤ b.toNat) ∨ comp = [] ∨ ∃ ext, comp = 0x2E :: ext ∧ 0x2E ∉ ext) →
      exec .encfn s = .next (errorResult .invalidFilename s)

/-! ### The checksum (41_checksum.md) -/

/-- The checksum is the exact sum of the bytes modulo 256 (R85). -/
def Obligations.ChecksumIsTheSumModulo256 : Prop :=
  ∀ l : List Byte, (checksum l).toNat = (l.map BitVec.toNat).sum % 256

/-- The laws of the checksum (R86). -/
def Obligations.ChecksumLaws : Prop :=
  checksum [] = 0 ∧
  (∀ s t : List Byte, (checksum (s ++ t)).toNat = ((checksum s).toNat + (checksum t).toNat) % 256) ∧
  (∀ s t : List Byte, s.Perm t → checksum s = checksum t) ∧
  (∀ (s : List Byte) (m : Nat), checksum (s ++ List.replicate m 0x00) = checksum s) ∧
  (∀ (b : Byte) (n : Nat), (checksum (List.replicate n b)).toNat = (b.toNat * n) % 256) ∧
  ∀ s t : List Byte, s = t → checksum s = checksum t

/-- CSUMBLK with BLK_VALID = 1 writes the sum of BLOCK's 128 bytes modulo 256 and changes nothing else but STATUS; with
BLK_VALID = 0 it raises SequenceError (R87). -/
def Obligations.CsumblkSumsTheBlock : Prop :=
  ∀ s : State,
    (s.status.blkValid = true →
      exec .csumblk s =
        .next { s with
          csum := BitVec.ofNat 8 (s.block.toList.map BitVec.toNat).sum
          status := { s.status with csValid := true, err := .ok }
          latched := none }) ∧
    (s.status.blkValid = false → exec .csumblk s = .next (errorResult .sequenceError s))

/-- CSUMRNG over a written range inside DMEM writes the sum of its bytes modulo 256 and changes nothing else but
STATUS; a range that ends beyond DMEM_SIZE, computed with no wrap, raises RangeError; a range with an unwritten byte
faults (R88; 20_memory.md R56). -/
def Obligations.CsumrngSumsTheRange : Prop :=
  ∀ s : State,
    (∀ bytes : List Byte, s.rbase.toNat + s.rlen.toNat ≤ 8388480 → bytes.length = s.rlen.toNat →
      (∀ k (h : k < bytes.length), Memory.lookup s.dmem (s.rbase.toNat + k) = some bytes[k]) →
      exec .csumrng s =
        .next { s with
          csum := BitVec.ofNat 8 (bytes.map BitVec.toNat).sum
          status := { s.status with csValid := true, err := .ok }
          latched := none }) ∧
    (8388480 < s.rbase.toNat + s.rlen.toNat → exec .csumrng s = .next (errorResult .rangeError s)) ∧
    (s.rbase.toNat + s.rlen.toNat ≤ 8388480 →
      (∃ k, k < s.rlen.toNat ∧ Memory.lookup s.dmem (s.rbase.toNat + k) = none) →
      exec .csumrng s = .fault .unwrittenDmemByte)

/-- With SEG_VALID = 1 and i < CNT, CSUMRNG over the data bytes of segment i gives the CSUM that GETBLK i followed by
CSUMBLK gives; all three complete with ERR = OK where the segment's data bytes are written (R89). -/
def Obligations.RangeChecksumAgreesWithBlockChecksum : Prop :=
  ∀ (s : State) (i : Nat), s.Inv → s.status.segValid = true → i < s.cnt.toNat →
    bytesWritten s.dmem (128 * i) (min 128 (s.dataLen.toNat - 128 * i)) →
    ∃ t u v, exec (.getblk i) s = .next t ∧ exec .csumblk t = .next u ∧
      exec .csumrng
        { s with
          rbase := BitVec.ofNat 32 (128 * i)
          rlen := BitVec.ofNat 32 (min 128 (s.dataLen.toNat - 128 * i)) } = .next v ∧
      t.status.err = .ok ∧ u.status.err = .ok ∧ v.status.err = .ok ∧ u.csum = v.csum

/-! ### The segmenter (42_segmenter.md) -/

/-- SEGMENT with DATA_LEN of at most 8,388,480 writes the least count n whose n × 128 bytes hold the file, computed with
no wrap, and changes nothing else but STATUS; a longer file raises FileTooLarge (R91, R93, R95). -/
def Obligations.SegmentCountsTheBlocks : Prop :=
  ∀ s : State,
    (s.dataLen.toNat ≤ 8388480 →
      ∃ n : Word, s.dataLen.toNat ≤ 128 * n.toNat ∧ 128 * n.toNat < s.dataLen.toNat + 128 ∧ n.toNat ≤ 65535 ∧
        exec .segment s =
          .next { s with cnt := n, status := { s.status with segValid := true, err := .ok }, latched := none }) ∧
    (8388480 < s.dataLen.toNat → exec .segment s = .next (errorResult .fileTooLarge s))

/-- GETBLK i with SEG_VALID = 1, i < CNT and the segment's data bytes written loads the segment: the DMEM byte below
DATA_LEN, 0x00 at or above it; BLK_IDX becomes i; nothing else but STATUS changes (R94, R96). -/
def Obligations.GetblkLoadsTheSegment : Prop :=
  ∀ (s : State) (i : Nat), s.status.segValid = true → i < s.cnt.toNat → i < 65536 →
    bytesWritten s.dmem (128 * i) (min 128 (s.dataLen.toNat - 128 * i)) →
    ∃ (v : Vector Byte 128) (x : BitVec 16),
      exec (.getblk i) s =
        .next { s with block := v, blkIdx := x, status := { s.status with blkValid := true, err := .ok },
                       latched := none } ∧
      x.toNat = i ∧
      ∀ k (h : k < 128),
        (128 * i + k < s.dataLen.toNat → Memory.lookup s.dmem (128 * i + k) = some v[k]) ∧
        (s.dataLen.toNat ≤ 128 * i + k → v[k] = 0x00)

/-- GETBLK i raises SequenceError with SEG_VALID = 0, then RangeError with i ≥ CNT; an unwritten data byte faults
(R96; 20_memory.md R56). -/
def Obligations.GetblkErrors : Prop :=
  ∀ (s : State) (i : Nat),
    (s.status.segValid = false → exec (.getblk i) s = .next (errorResult .sequenceError s)) ∧
    (s.status.segValid = true → s.cnt.toNat ≤ i → exec (.getblk i) s = .next (errorResult .rangeError s)) ∧
    (s.Inv → s.status.segValid = true → i < s.cnt.toNat →
      (∃ k, k < 128 ∧ 128 * i + k < s.dataLen.toNat ∧ Memory.lookup s.dmem (128 * i + k) = none) →
      exec (.getblk i) s = .fault .unwrittenDmemByte)

/-- A zero-length file: SEGMENT gives CNT = 0, every GETBLK then raises RangeError, and with FN_VALID = 1 BUILDHDR gives
the count bytes 00 00 (R97). -/
def Obligations.ZeroLengthFileHasNoSegment : Prop :=
  ∀ s : State, s.dataLen = 0 →
    ∃ t, exec .segment s = .next t ∧ t.status.err = .ok ∧ t.cnt = 0 ∧
      (∀ i, exec (.getblk i) t = .next (errorResult .rangeError t)) ∧
      (s.status.fnValid = true →
        ∃ u, exec .buildhdr t = .next u ∧ u.status.err = .ok ∧ u.header[12] = 0 ∧ u.header[13] = 0)

/-- GETBLK is restartable: run from any state with the same DMEM and DATA_LEN it gives the same BLOCK and BLK_IDX, and
run again at once it changes nothing (R96). -/
def Obligations.GetblkIsRestartable : Prop :=
  ∀ (s t : State) (i : Nat), exec (.getblk i) s = .next t → t.status.err = .ok →
    exec (.getblk i) t = .next t ∧
    ∀ s' t' : State, s'.dmem = s.dmem → s'.dataLen = s.dataLen →
      exec (.getblk i) s' = .next t' → t'.status.err = .ok → t'.block = t.block ∧ t'.blkIdx = t.blkIdx

/-- The segments rebuild the file: a written file of L bytes makes ceil(L/128) segments of 128 bytes, the first L
bytes of them together are the file, and all the rest is zero (R98). -/
def Obligations.SegmentsRebuildTheFile : Prop :=
  ∀ (m : Memory) (file : List Byte), file.length ≤ 8388480 →
    (∀ k (h : k < file.length), Memory.lookup m k = some file[k]) →
    (∀ i, i < (file.length + 127) / 128 → ∃ seg, segmentBytes m file.length i = .ok seg ∧ seg.length = 128) ∧
    ∃ body, frameBody m file.length 0 ((file.length + 127) / 128) = .ok body ∧
      body.length = 128 * ((file.length + 127) / 128) ∧ body.take file.length = file ∧
      ∀ b ∈ body.drop file.length, b = 0x00

/-- The frame is 14 + 128 × CNT bytes: HEADER, then byte 14 + 128·i + k is byte k of what GETBLK i leaves in BLOCK
(R99, R100). -/
def Obligations.FrameIsHeaderThenBlocks : Prop :=
  ∀ s : State, s.Inv → s.status.hdrValid = true → s.status.segValid = true →
    bytesWritten s.dmem 0 s.dataLen.toNat →
    ∃ bytes, frame s.toHb = .ok bytes ∧ bytes.length = 14 + 128 * s.cnt.toNat ∧
      bytes[0]? = some 0x01 ∧ bytes.take 14 = s.header.toList ∧
      ∀ i, i < s.cnt.toNat →
        ∃ t, exec (.getblk i) s = .next t ∧ t.status.err = .ok ∧
          ∀ k (h : k < 128), bytes[14 + 128 * i + k]? = some t.block[k]

/-! ### The header builder (43_header_builder.md) -/

/-- BUILDHDR with FN_VALID = 1 and CNT ≤ 65535 writes 0x01, the 11 name bytes and the count, low byte first, and
changes nothing else but STATUS (R102, R105). -/
def Obligations.BuildhdrAssemblesTheHeader : Prop :=
  ∀ s : State, s.status.fnValid = true → s.cnt.toNat ≤ 65535 →
    ∃ v : Vector Byte 14,
      exec .buildhdr s =
        .next { s with header := v, status := { s.status with hdrValid := true, err := .ok }, latched := none } ∧
      v[0] = 0x01 ∧ (∀ k (h : k < 11), v[1 + k] = s.fname[k]) ∧
      v[12].toNat = s.cnt.toNat % 256 ∧ v[13].toNat = s.cnt.toNat / 256

/-- BUILDHDR raises SequenceError with FN_VALID = 0, whatever CNT is, then InvalidBlockCount with CNT > 65535
(R104, R105). -/
def Obligations.BuildhdrErrors : Prop :=
  ∀ s : State,
    (s.status.fnValid = false → exec .buildhdr s = .next (errorResult .sequenceError s)) ∧
    (s.status.fnValid = true → 65535 < s.cnt.toNat → exec .buildhdr s = .next (errorResult .invalidBlockCount s))

/-- Decoding the header BUILDHDR made gives back FNAME and CNT, for every CNT ≤ 65535 (R106). -/
def Obligations.HeaderRoundTrip : Prop :=
  ∀ s : State, s.status.fnValid = true → s.cnt.toNat ≤ 65535 →
    ∃ t, exec .buildhdr s = .next t ∧ t.status.err = .ok ∧
      (t.header.toList.drop 1).take 11 = s.fname.toList ∧
      t.header[12].toNat + 256 * t.header[13].toNat = s.cnt.toNat ∧
      headerName t.header = s.fname.toList ∧ headerCount t.header = s.cnt.toNat

/-- Once SEGMENT has succeeded and the host has not written DATA_LEN or CNT since, BUILDHDR cannot raise
InvalidBlockCount (60_exceptions.md R121). -/
def Obligations.SegmentSuccessRulesOutInvalidBlockCount : Prop :=
  ∀ s : State, s.Inv → s.status.segValid = true →
    ∃ t, exec .buildhdr s = .next t ∧ t.status.err ≠ .invalidBlockCount ∧
      (s.status.fnValid = true → t.status.err = .ok)

/-! ### Completion and errors (60_exceptions.md) -/

/-- A command that completes with an error writes nothing of its own: ERR is its code, ERRSEEN is 1, BUSY is 0, all
else is as it was (R113). -/
def Obligations.FailingCommandWritesOnlyStatus : Prop :=
  ∀ (i : Instr) (s t : State), exec i s = .next t → t.status.err ≠ .ok →
    t = errorResult t.status.err s ∧ t.status.errSeen = true ∧ busy t.toHb = false ∧
      ∃ u, exec .nop t = .next u ∧ u.status.err = .ok

/-- A command that succeeds sets ERR to 0 and BUSY to 0 and leaves ERRSEEN as it was, except that SRESET clears it
(R112). -/
def Obligations.SuccessfulCommandKeepsErrSeen : Prop :=
  ∀ (i : Instr) (s t : State), exec i s = .next t → t.status.err = .ok →
    busy t.toHb = false ∧ errCode t.status.err = 0 ∧
      (i ≠ .sreset → t.status.errSeen = s.status.errSeen) ∧ (i = .sreset → t.status.errSeen = false)

/-- The one outcome a command word reports is the first that applies in the order IllegalCommand, SequenceError,
RangeError, the component's own error (R114, R115). -/
def Obligations.ChecksAreMadeInOrder : Prop :=
  ∀ (w : Word) (s t : State), execWord w s = .next t →
    (∀ r, decode w = .illegal r → t.status.err = .illegalCommand) ∧
    ∀ i, decode w = .instr i → t.status.err = firstError i s

/-- STATUS.ERR changes only at a completion or a hardware reset (10_state.md R26). -/
def Obligations.ErrChangesOnlyAtCompletionOrReset : Prop :=
  ∀ s t : State, step s = .next t → t.status.err ≠ s.status.err → (∃ w, completesWord s w) ∨ resetsNext s

/-- STATUS.ERRSEEN is set by every completion with ERR ≠ 0 and by nothing else, and cleared by the hardware resets and
SRESET and by nothing else (10_state.md R27). -/
def Obligations.ErrSeenIsSticky : Prop :=
  ∀ s t : State, step s = .next t →
    ((∃ w, completesWord s w) → t.status.err ≠ .ok → t.status.errSeen = true) ∧
    (s.status.errSeen = false → t.status.errSeen = true → (∃ w, completesWord s w) ∧ t.status.err ≠ .ok) ∧
    (s.status.errSeen = true → t.status.errSeen = false → completes s .sreset ∨ resetsNext s) ∧
    (completes s .sreset ∨ resetsNext s → t.status.errSeen = false)

/-! ### Frames and the state's rules (10_state.md, 30_encoding.md R66) -/

/-- The frame of every command but SRESET: a command changes no result but its own, no operand register, no array, and
nothing of the outside world's side (30_encoding.md R66). -/
def Obligations.EachCommandWritesOnlyItsResults : Prop :=
  ∀ (i : Instr) (s t : State), exec i s = .next t → i ≠ .sreset →
    t.dataLen = s.dataLen ∧ t.pathLen = s.pathLen ∧ t.rbase = s.rbase ∧ t.rlen = s.rlen ∧ t.path = s.path ∧
    (i ≠ .encfn → t.fname = s.fname ∧ t.status.fnValid = s.status.fnValid) ∧
    (i ≠ .csumblk → i ≠ .csumrng → t.csum = s.csum ∧ t.status.csValid = s.status.csValid) ∧
    (i ≠ .segment → t.cnt = s.cnt ∧ t.status.segValid = s.status.segValid) ∧
    ((∀ n, i ≠ .getblk n) →
      t.block = s.block ∧ t.blkIdx = s.blkIdx ∧ t.status.blkValid = s.status.blkValid) ∧
    (i ≠ .buildhdr → t.header = s.header ∧ t.status.hdrValid = s.status.hdrValid) ∧
    t.moves = s.moves ∧ t.latency = s.latency ∧ t.resetPin = s.resetPin ∧ t.seen = s.seen ∧ t.draws = s.draws

/-- No command writes DMEM: every byte reads as before, and keeps its written or unwritten mark (20_memory.md R56). -/
def Obligations.NoCommandWritesDmem : Prop :=
  ∀ (i : Instr) (s t : State), exec i s = .next t →
    t.dmem = s.dmem ∧ ∀ a, Memory.lookup t.dmem a = Memory.lookup s.dmem a

/-- A command depends on HB's own record alone (R22): from two states with the same record it ends the same way, and
leaves the same record. -/
def Obligations.OutcomeDependsOnHbAlone : Prop :=
  ∀ (i : Instr) (s s' : State), s'.toHb = s.toHb →
    (∀ t, exec i s = .next t → exec i s' = .next { s' with toHb := t.toHb }) ∧
    (∀ f, exec i s = .fault f → exec i s' = .fault f) ∧ ∀ r, exec i s ≠ .refused r

/-- Each valid flag is set by the success of its own command and by nothing else, and cleared by the hardware resets
and SRESET, SEG_VALID also by a host write to DATA_LEN or CNT, and by nothing else (R37). -/
def Obligations.ValidFlagsAreSetAndClearedByTheirEvents : Prop :=
  ∀ s t : State, step s = .next t →
    (t.status.err = .ok →
      (completes s .encfn → t.status.fnValid = true) ∧
      (completes s .segment → t.status.segValid = true) ∧
      (completes s .buildhdr → t.status.hdrValid = true) ∧
      ((∃ n, completes s (.getblk n)) → t.status.blkValid = true) ∧
      (completes s .csumblk ∨ completes s .csumrng → t.status.csValid = true)) ∧
    (s.status.fnValid = false → t.status.fnValid = true → completes s .encfn ∧ t.status.err = .ok) ∧
    (s.status.segValid = false → t.status.segValid = true → completes s .segment ∧ t.status.err = .ok) ∧
    (s.status.hdrValid = false → t.status.hdrValid = true → completes s .buildhdr ∧ t.status.err = .ok) ∧
    (s.status.blkValid = false → t.status.blkValid = true →
      (∃ n, completes s (.getblk n)) ∧ t.status.err = .ok) ∧
    (s.status.csValid = false → t.status.csValid = true →
      (completes s .csumblk ∨ completes s .csumrng) ∧ t.status.err = .ok) ∧
    (s.status.fnValid = true → t.status.fnValid = false → completes s .sreset ∨ resetsNext s) ∧
    (s.status.segValid = true → t.status.segValid = false →
      completes s .sreset ∨ resetsNext s ∨ ∃ v, writesNext s 0x008 v ∨ writesNext s 0x00C v) ∧
    (s.status.hdrValid = true → t.status.hdrValid = false → completes s .sreset ∨ resetsNext s) ∧
    (s.status.blkValid = true → t.status.blkValid = false → completes s .sreset ∨ resetsNext s) ∧
    (s.status.csValid = true → t.status.csValid = false → completes s .sreset ∨ resetsNext s) ∧
    (completes s .sreset ∨ resetsNext s → t.status = Status.reset) ∧
    ((∃ v, writesNext s 0x008 v ∨ writesNext s 0x00C v) → t.status.segValid = false)

/-- A host write to DATA_LEN or CNT stores its value and clears SEG_VALID, whatever the value; GETBLK then raises
SequenceError in every state until a SEGMENT success sets SEG_VALID again (R39). The draw counter a write advances is
the model's choice (log entry 2). -/
def Obligations.LengthOrCountWriteClearsSegValid : Prop :=
  (∀ (s : State) (v : Word), s.resetPin = false → s.latched = none →
    hostWrite 0x008 v s =
      .next { s with dataLen := v, status := { s.status with segValid := false }, draws := s.draws + 1 } ∧
    hostWrite 0x00C v s =
      .next { s with cnt := v, status := { s.status with segValid := false }, draws := s.draws + 1 }) ∧
  (∀ (s : State) (n : Nat), s.status.segValid = false →
    ∃ t, exec (.getblk n) s = .next t ∧ t.status.err = .sequenceError ∧ t.block = s.block) ∧
  ∀ s t : State, step s = .next t → s.status.segValid = false → t.status.segValid = true → completes s .segment

/-- DMEM changes only by a host byte write, power-on aside (R42). -/
def Obligations.DmemChangesOnlyByHostWriteOrPowerOn : Prop :=
  ∀ s t : State, step s = .next t → t.dmem ≠ s.dmem →
    (∃ a b ms, s.moves = .wrb a b :: ms ∧ s.latched = none ∧ t.dmem = Memory.store s.dmem a.toNat b) ∨
      (∃ ms, s.moves = .powerOn :: ms) ∧ t.dmem = []

/-- STATUS read as a word: BUSY, ERRSEEN, ERR and the valid flags at their bits, every reserved bit 0 (R24); and the
code of each outcome (60_exceptions.md R111). -/
def Obligations.StatusWordLayout : Prop :=
  (∀ h : Hb,
    (statusWord h).toNat =
      (busy h).toNat + 2 * h.status.errSeen.toNat + 16 * (errCode h.status.err).toNat +
        256 * h.status.fnValid.toNat + 512 * h.status.segValid.toNat + 1024 * h.status.hdrValid.toNat +
        2048 * h.status.blkValid.toNat + 4096 * h.status.csValid.toNat) ∧
  errCode .ok = 0 ∧ errCode .invalidFilename = 1 ∧ errCode .fileTooLarge = 2 ∧ errCode .invalidBlockCount = 3 ∧
  errCode .illegalCommand = 4 ∧ errCode .sequenceError = 5 ∧ errCode .rangeError = 6

/-! ### REG space and DMEM from the host's side (20_memory.md) -/

/-- A window's word is its four bytes little-endian, a byte at or beyond the array's length 0; and a word written to
the PATH window reads back, changing no other PATH byte (R49). -/
def Obligations.WindowsPackLittleEndian : Prop :=
  (∀ (n : Nat) (x : Vector Byte n) (k : Nat),
    (windowWord x k).toNat =
      (x[4 * k]?.getD 0).toNat + 256 * (x[4 * k + 1]?.getD 0).toNat + 65536 * (x[4 * k + 2]?.getD 0).toNat +
        16777216 * (x[4 * k + 3]?.getD 0).toNat) ∧
  ∀ (x : Vector Byte 256) (k : Nat) (w : Word), k < 64 →
    windowWord (windowWrite x k w) k = w ∧
      ∀ j (h : j < 256), j / 4 ≠ k → (windowWrite x k w)[j] = x[j]

/-- A value the host writes to DATA_LEN, CNT, PATH_LEN, RBASE, RLEN or a PATH word reads back unchanged, and a write of
the last four changes nothing else: the write of the PATH word at 0x100 + 4k sets PATH[4k..4k+4) alone (R28 to R31,
R35; R48, R52). The draw counter a write advances is the model's choice (log entry 2). -/
def Obligations.WrittenRegistersReadBack : Prop :=
  ∀ (s : State) (off : BitVec 12) (v : Word), s.resetPin = false → s.latched = none →
    (off = 0x008 ∨ off = 0x00C ∨ off = 0x010 ∨ off = 0x014 ∨ off = 0x018 ∨
      (0x100 ≤ off.toNat ∧ off.toNat ≤ 0x1FF ∧ off.toNat % 4 = 0)) →
    ∃ t, hostWrite off v s = .next t ∧ readReg t.toHb (regLoc off) = v ∧
      ((off = 0x010 → t = { s with pathLen := v, draws := s.draws + 1 }) ∧
        (off = 0x014 → t = { s with rbase := v, draws := s.draws + 1 }) ∧
        (off = 0x018 → t = { s with rlen := v, draws := s.draws + 1 }) ∧
        (0x100 ≤ off.toNat →
          t = { s with path := windowWrite s.path ((off.toNat - 0x100) / 4) v, draws := s.draws + 1 }))

/-- A host write to STATUS, CSUM, BLK_IDX, the FNAME, HEADER or BLOCK window or an unmapped offset is ignored, and a
read of an unmapped offset returns 0; neither changes HB (R48, R51). The draw counter a write advances (log entry 2) and
the record of the values seen (log entry 5) are the model's choice. -/
def Obligations.ReadOnlyAndUnmappedWritesAreIgnored : Prop :=
  ∀ (s : State) (off : BitVec 12) (v : Word), s.resetPin = false → off.toNat % 4 = 0 →
    (s.latched = none →
      (off = 0x004 ∨ off = 0x01C ∨ off = 0x020 ∨ (0x024 ≤ off.toNat ∧ off.toNat ≤ 0x0FF) ∨ 0x200 ≤ off.toNat) →
      hostWrite off v s = .next { s with draws := s.draws + 1 }) ∧
    ((0x024 ≤ off.toNat ∧ off.toNat ≤ 0x0FF) ∨ (0x20C ≤ off.toNat ∧ off.toNat ≤ 0x20F) ∨
        (0x220 ≤ off.toNat ∧ off.toNat ≤ 0x27F) ∨ 0x300 ≤ off.toNat →
      hostRead off s = .next { s with seen := .reg off 0 :: s.seen })

/-- No host read has a side effect on HB: only the record of what was seen, the model's own (log entry 5), grows
(R52). -/
def Obligations.HostReadsHaveNoSideEffect : Prop :=
  ∀ s t : State,
    (∀ off, hostRead off s = .next t → ∃ v, t = { s with seen := .reg off v :: s.seen } ∧
      hostRead off t = .next { t with seen := .reg off v :: t.seen }) ∧
    (∀ a, hostReadByte a s = .next t → ∃ b, t = { s with seen := .dmem a b :: s.seen } ∧
      hostReadByte a t = .next { t with seen := .dmem a b :: t.seen })

/-- A host byte write below DMEM_SIZE sets that byte, marks it written and changes no other byte; at or above
DMEM_SIZE it is ignored (R53). The draw counter a write advances (log entry 2) and the canonical form of DMEM
(log entry 12) are the model's choice. -/
def Obligations.HostByteWriteSetsOneByte : Prop :=
  ∀ (s : State) (a : BitVec 23) (b : Byte), s.resetPin = false → s.latched = none →
    (a.toNat < 8388480 →
      ∃ m, hostWriteByte a b s = .next { s with dmem := m, draws := s.draws + 1 } ∧
        Memory.lookup m a.toNat = some b ∧
        (∀ c, c ≠ a.toNat → Memory.lookup m c = Memory.lookup s.dmem c) ∧ (Memory.wf s.dmem → Memory.wf m)) ∧
    (8388480 ≤ a.toNat → hostWriteByte a b s = .next { s with draws := s.draws + 1 })

/-- A host byte read returns the last value written, 0x00 at or above DMEM_SIZE, and for an unwritten byte the free value
drawn with the draw counter, the model's choice (log entry 2); it changes nothing of HB, only the record of what was
seen, the model's own (R54; log entry 5). -/
def Obligations.HostByteReadReturnsTheByte : Prop :=
  ∀ (s : State) (a : BitVec 23), s.resetPin = false →
    ∃ b, hostReadByte a s = .next { s with seen := .dmem a b :: s.seen } ∧
      (∀ c, a.toNat < 8388480 → Memory.lookup s.dmem a.toNat = some c → b = c) ∧
      (a.toNat < 8388480 → Memory.lookup s.dmem a.toNat = none → b = Config.unwrittenByte s.draws a.toNat) ∧
      (8388480 ≤ a.toNat → b = 0x00)

/-! ### Reset and the host's duties (70_reset_and_hazards.md) -/

/-- The reset values (10_state.md R43), with no command in flight and every DMEM byte unwritten. -/
def Obligations.ResetValues : Prop :=
  statusWord State.reset.toHb = 0 ∧ State.reset.latched = none ∧ State.reset.dataLen = 0 ∧
  State.reset.cnt = 0 ∧ State.reset.pathLen = 0 ∧ State.reset.rbase = 0 ∧ State.reset.rlen = 0 ∧
  State.reset.csum = 0 ∧ State.reset.blkIdx = 0 ∧ State.reset.path = Vector.replicate 256 0 ∧
  State.reset.fname = Vector.replicate 11 0 ∧ State.reset.header = Vector.replicate 14 0 ∧
  State.reset.block = Vector.replicate 128 0 ∧ ∀ a, Memory.lookup State.reset.dmem a = none

/-- Power-on and the reset input put HB at the reset values, power-on with every DMEM byte unwritten, the reset input
with DMEM unchanged; no command is in flight; HB then starts nothing of its own (R128, R130). The reset input as a field
with its release (log entry 8) and the idle step that changes nothing (log entry 6) are the model's choice. -/
def Obligations.HardwareResetsGiveResetValues : Prop :=
  ∀ (s : State) (ms : List Move), s.latched = none →
    (s.moves = .powerOn :: ms → ∃ t, step s = .next t ∧ t.toHb = Hb.reset ∧ t.moves = ms ∧
      ∀ a, Memory.lookup t.dmem a = none) ∧
    (s.moves = .resetAssert :: ms →
      ∃ t u, step s = .next t ∧ t.toHb = { Hb.reset with dmem := s.dmem } ∧ t.moves = ms ∧ t.resetPin = true ∧
        exec .sreset s = .next u ∧ u.toHb = t.toHb) ∧
    (s.moves = .resetRelease :: ms → ∃ t, step s = .next t ∧ t.toHb = s.toHb ∧ t.resetPin = false ∧
      (ms = [] → step t = .next t))

/-- A reset during a command abandons it: none of its writes is committed, ERR is 0, the state is the reset state; and
while the reset input stays asserted no host access is admitted (R129). The latency used up and the reset input as a
field (log entry 8), and reset as the reason a refusal names first (log entry 7), are the model's choice. -/
def Obligations.ResetDuringACommandAbandonsIt : Prop :=
  (∀ (s : State) (w : Word) (ms : List Move), s.latched = some w → s.latency.headD 0 ≠ 0 →
    (s.moves = .resetAssert :: ms →
      ∃ t, step s = .next t ∧ t.toHb = { Hb.reset with dmem := s.dmem } ∧ t.resetPin = true ∧
        t.latency = s.latency.tail ∧ t.moves = ms) ∧
    (s.moves = .powerOn :: ms →
      ∃ t, step s = .next t ∧ t.toHb = Hb.reset ∧ t.latency = s.latency.tail ∧ t.moves = ms)) ∧
  ∀ (s : State) (off : BitVec 12) (v : Word) (a : BitVec 23) (b : Byte), s.resetPin = true →
    hostWrite off v s = .refused .accessDuringReset ∧ hostRead off s = .refused .accessDuringReset ∧
    hostWriteByte a b s = .refused .accessDuringReset ∧ hostReadByte a s = .refused .accessDuringReset ∧
    hostPoll s = .refused .accessDuringReset ∧ hostNarrow s = .refused .accessDuringReset

/-- The host's duties: a CMD write while busy, any other write while busy, and a REG access that is no aligned word are
refused; reads while busy are admitted and return the values HB holds (R133, R134, R135). Which refusal is named first
(log entry 7), the narrow access as a move without data (log entry 19) and the record of the values seen (log entry 5)
are the model's choice. -/
def Obligations.HostDutyViolationsAreRefused : Prop :=
  ∀ s : State, s.resetPin = false →
    (∀ (off : BitVec 12) (v : Word), off.toNat % 4 ≠ 0 →
      hostWrite off v s = .refused .regAccessForm ∧ hostRead off s = .refused .regAccessForm) ∧
    hostNarrow s = .refused .regAccessForm ∧
    (busy s.toHb = true →
      (∀ v, hostWrite 0x000 v s = .refused .cmdWriteWhileBusy) ∧
      (∀ (off : BitVec 12) (v : Word), off.toNat % 4 = 0 → off ≠ 0x000 →
        hostWrite off v s = .refused .writeWhileBusy) ∧
      (∀ a b, hostWriteByte a b s = .refused .writeWhileBusy) ∧
      (∀ off : BitVec 12, off.toNat % 4 = 0 →
        hostRead off s = .next { s with seen := .reg off (readReg s.toHb (regLoc off)) :: s.seen }) ∧
      ∀ a, ∃ b, hostReadByte a s = .next { s with seen := .dmem a b :: s.seen })

/-! ### The invariant (10_state.md R40) -/

/-- The reset state meets the invariant. -/
def Obligations.ResetMeetsTheInvariant : Prop := State.reset.Inv

/-- Every step keeps the invariant: the clauses of R40, DMEM's canonical form (the model's own, log entry 12), and HB
held at reset while the reset input is asserted. -/
def Obligations.StepKeepsTheInvariant : Prop :=
  ∀ s t : State, s.Inv → step s = .next t → t.Inv

/-! ### The register map as the host reads it (20_memory.md R48) -/

/-- What a host read returns at every mapped offset, whether a command is in flight or not: 0 at CMD, each register at
its own, CSUM and BLK_IDX with zeros above, and word k of the PATH, FNAME, HEADER and BLOCK windows at 0x100, 0x200,
0x210 and 0x280 + 4k as its four bytes little-endian, a byte beyond the array 0 (R23, R28 to R36, R38; R48, R49). The
record of the values seen is the model's own (log entry 5). -/
def Obligations.HostReadsReturnTheRegisterMap : Prop :=
  ∀ s : State, s.resetPin = false →
    hostRead 0x000 s = .next { s with seen := .reg 0x000 0 :: s.seen } ∧
    hostRead 0x004 s = .next { s with seen := .reg 0x004 (statusWord s.toHb) :: s.seen } ∧
    hostRead 0x008 s = .next { s with seen := .reg 0x008 s.dataLen :: s.seen } ∧
    hostRead 0x00C s = .next { s with seen := .reg 0x00C s.cnt :: s.seen } ∧
    hostRead 0x010 s = .next { s with seen := .reg 0x010 s.pathLen :: s.seen } ∧
    hostRead 0x014 s = .next { s with seen := .reg 0x014 s.rbase :: s.seen } ∧
    hostRead 0x018 s = .next { s with seen := .reg 0x018 s.rlen :: s.seen } ∧
    (∃ v, hostRead 0x01C s = .next { s with seen := .reg 0x01C v :: s.seen } ∧ v.toNat = s.csum.toNat) ∧
    (∃ v, hostRead 0x020 s = .next { s with seen := .reg 0x020 v :: s.seen } ∧ v.toNat = s.blkIdx.toNat) ∧
    (∀ (off : BitVec 12) (k : Nat), k < 64 → off.toNat = 0x100 + 4 * k →
      ∃ v, hostRead off s = .next { s with seen := .reg off v :: s.seen } ∧ wordOfBytes s.path.toList k v) ∧
    (∀ (off : BitVec 12) (k : Nat), k < 3 → off.toNat = 0x200 + 4 * k →
      ∃ v, hostRead off s = .next { s with seen := .reg off v :: s.seen } ∧ wordOfBytes s.fname.toList k v) ∧
    (∀ (off : BitVec 12) (k : Nat), k < 4 → off.toNat = 0x210 + 4 * k →
      ∃ v, hostRead off s = .next { s with seen := .reg off v :: s.seen } ∧ wordOfBytes s.header.toList k v) ∧
    ∀ (off : BitVec 12) (k : Nat), k < 32 → off.toNat = 0x280 + 4 * k →
      ∃ v, hostRead off s = .next { s with seen := .reg off v :: s.seen } ∧ wordOfBytes s.block.toList k v
end

