-- ==== Sys2Proof/Laws/Arrays.lean ====
section
/-!
SUPPORT. Arrays written from byte sequences, and the windows over them (20_memory.md R49).
-/

namespace Sys2Proof.Machine

@[simp] theorem arrayOf_getElem (n : Nat) (l : List Byte) (k : Nat) (hk : k < n) :
    (arrayOf n l)[k] = l.getD k 0 := by simp [arrayOf]

/-- An array written from a sequence of its own length is that sequence. -/
theorem arrayOf_toList {n : Nat} {l : List Byte} (h : l.length = n) : (arrayOf n l).toList = l := by
  apply List.ext_getElem
  · simp [h]
  · intro k h1 h2
    have hk : k < n := by simpa using h1
    simp [arrayOf, h2]

/-- Four bytes side by side, as a number. -/
theorem toNat_append4 (a b c d : Byte) :
    (a ++ b ++ c ++ d : BitVec (8 + 8 + 8 + 8)).toNat =
      d.toNat + 256 * c.toNat + 65536 * b.toNat + 16777216 * a.toNat := by
  have two : ∀ {m n : Nat} (x : BitVec m) (y : BitVec n), (x ++ y).toNat = x.toNat * 2 ^ n + y.toNat := by
    intro m n x y
    rw [BitVec.toNat_append, ← Nat.shiftLeft_add_eq_or_of_lt y.isLt, Nat.shiftLeft_eq]
  rw [two, two, two]
  omega

theorem windowByte_lt {n : Nat} (x : Vector Byte n) {j : Nat} (h : j < n) : windowByte x j = x[j] := by
  simp [windowByte, h]

theorem windowByte_ge {n : Nat} (x : Vector Byte n) {j : Nat} (h : n ≤ j) : windowByte x j = 0 := by
  simp [windowByte, Vector.getElem?_eq_none h]

end Sys2Proof.Machine
end

