-- ==== Sys2Proof/Laws/Assembler.lean ====
section
/-!
SUPPORT. The assembler's digits and numbers (30_encoding.md R72): each parser answers exactly the spellings of its
digits, with their value.
-/

namespace Sys2Proof.Machine

theorem char_eq_of_toNat {c d : Char} (h : c.toNat = d.toNat) : c = d :=
  Char.ext (UInt32.toNat_inj.1 h)

theorem decimalDigit_digitChar {d : Nat} (h : d < 10) : decimalDigit (Nat.digitChar d) = some d := by
  revert d; decide

theorem decimalDigit_eq_some {c : Char} {d : Nat} (h : decimalDigit c = some d) :
    d < 10 ∧ c = Nat.digitChar d := by
  unfold decimalDigit at h
  split at h
  · rename_i hc
    obtain ⟨h1, h2⟩ := hc
    have hd : d = c.toNat - 48 := by simpa using h.symm
    refine ⟨by omega, char_eq_of_toNat ?_⟩
    have key : ∀ e, e < 10 → (Nat.digitChar e).toNat = e + 48 := by decide
    rw [key d (by omega)]
    omega
  · cases h

theorem hexDigit_hexChar {d : Nat × Bool} (h : d.1 < 16) : hexDigit (hexChar d) = some d.1 := by
  obtain ⟨d, u⟩ := d
  have key : ∀ e, e < 16 → ∀ u, hexDigit (hexChar (e, u)) = some e := by decide
  exact key d h u

theorem hexDigit_eq_some {c : Char} {d : Nat} (h : hexDigit c = some d) : d < 16 ∧ ∃ u, c = hexChar (d, u) := by
  have k1 : ∀ e, e < 10 → (hexChar (e, false)).toNat = e + 48 := by decide
  have k2 : ∀ e, e < 6 → (hexChar (e + 10, false)).toNat = e + 97 := by decide
  have k3 : ∀ e, e < 6 → (hexChar (e + 10, true)).toNat = e + 65 := by decide
  unfold hexDigit at h
  split at h
  · have hd : d = c.toNat - 48 := by simpa using h.symm
    exact ⟨by omega, false, char_eq_of_toNat (by rw [k1 d (by omega)]; omega)⟩
  split at h
  · have hd : d = c.toNat - 87 := by simpa using h.symm
    refine ⟨by omega, false, char_eq_of_toNat ?_⟩
    obtain ⟨e, rfl⟩ : ∃ e, d = e + 10 := ⟨d - 10, by omega⟩
    rw [k2 e (by omega)]; omega
  split at h
  · have hd : d = c.toNat - 55 := by simpa using h.symm
    refine ⟨by omega, true, char_eq_of_toNat ?_⟩
    obtain ⟨e, rfl⟩ : ∃ e, d = e + 10 := ⟨d - 10, by omega⟩
    rw [k3 e (by omega)]; omega
  · cases h

/-- The value of a spelling whose digits `spell` writes and `digit` reads back. -/
theorem digitsValue_map {α : Type} {base : Nat} {digit : Char → Option Nat} {spell : α → Char} {val : α → Nat}
    (acc : Nat) (ds : List α) (h : ∀ d ∈ ds, digit (spell d) = some (val d)) :
    digitsValue base digit acc (ds.map spell) = some (acc * base ^ ds.length + Nat.ofDigits base (ds.map val).reverse) := by
  induction ds generalizing acc with
  | nil => simp [digitsValue]
  | cons d ds ih =>
    simp only [List.map_cons, digitsValue, h d (by simp)]
    rw [ih _ fun e he => h e (by simp [he])]
    simp only [List.reverse_cons, Nat.ofDigits_append, Nat.ofDigits_singleton, List.length_reverse, List.length_map,
      List.length_cons, pow_succ]
    congr 1
    ring

/-- Only spellings of digits have a value. -/
theorem digitsValue_eq_some {α : Type} {base : Nat} {digit : Char → Option Nat} {spell : α → Char} {val : α → Nat}
    {ok : α → Prop} (inv : ∀ c n, digit c = some n → ∃ d, ok d ∧ val d = n ∧ c = spell d) {acc n : Nat}
    {cs : List Char} (h : digitsValue base digit acc cs = some n) :
    ∃ ds : List α, (∀ d ∈ ds, ok d) ∧ cs = ds.map spell := by
  induction cs generalizing acc with
  | nil => exact ⟨[], by simp, rfl⟩
  | cons c cs ih =>
    unfold digitsValue at h
    split at h
    · cases h
    · rename_i m hm
      obtain ⟨d, hd, -, rfl⟩ := inv c m hm
      obtain ⟨ds, hds, rfl⟩ := ih h
      exact ⟨d :: ds, by simpa [hd] using hds, rfl⟩

/-- A decimal operand has its digits' value. -/
theorem decimalValue_map (acc : Nat) {ds : List Nat} (h : ∀ d ∈ ds, d < 10) :
    digitsValue 10 decimalDigit acc (ds.map Nat.digitChar) =
      some (acc * 10 ^ ds.length + Nat.ofDigits 10 ds.reverse) := by
  simpa using digitsValue_map (val := id) acc ds fun d hd => decimalDigit_digitChar (h d hd)

/-- A hexadecimal operand has its digits' value. -/
theorem hexValue_map (acc : Nat) {ds : List (Nat × Bool)} (h : ∀ d ∈ ds, d.1 < 16) :
    digitsValue 16 hexDigit acc (ds.map hexChar) =
      some (acc * 16 ^ ds.length + Nat.ofDigits 16 (ds.map Prod.fst).reverse) :=
  digitsValue_map (val := Prod.fst) acc ds fun d hd => hexDigit_hexChar (h d hd)

theorem decimalValue_eq_some {acc n : Nat} {cs : List Char} (h : digitsValue 10 decimalDigit acc cs = some n) :
    ∃ ds : List Nat, (∀ d ∈ ds, d < 10) ∧ cs = ds.map Nat.digitChar :=
  digitsValue_eq_some (val := id)
    (fun _ n hc => ⟨n, (decimalDigit_eq_some hc).1, rfl, (decimalDigit_eq_some hc).2⟩) h

theorem hexValue_eq_some {acc n : Nat} {cs : List Char} (h : digitsValue 16 hexDigit acc cs = some n) :
    ∃ ds : List (Nat × Bool), (∀ d ∈ ds, d.1 < 16) ∧ cs = ds.map hexChar :=
  digitsValue_eq_some (val := Prod.fst)
    (fun _ n hc => by
      obtain ⟨hn, u, hu⟩ := hexDigit_eq_some hc
      exact ⟨(n, u), hn, rfl, hu⟩) h

/-- A decimal spelling is no hexadecimal one: its second character is a digit. -/
theorem parseNumber_decimal {ds : List Nat} (hne : ds ≠ []) (h : ∀ d ∈ ds, d < 10) :
    parseNumber (ds.map Nat.digitChar) = some (Nat.ofDigits 10 ds.reverse) := by
  have hx : ∀ d, d < 10 → Nat.digitChar d ≠ 'x' := by decide
  have hv := decimalValue_map 0 h
  unfold parseNumber
  split
  · rename_i he
    exact absurd (List.map_eq_nil_iff.1 he) hne
  · rename_i he
    obtain ⟨d, hm, hd⟩ := List.mem_map.1 (he ▸ (by simp : 'x' ∈ ['0', 'x']))
    exact absurd hd (hx d (h d hm))
  · rename_i cs _ he
    obtain ⟨d, hm, hd⟩ := List.mem_map.1 (he ▸ (by simp : 'x' ∈ '0' :: 'x' :: cs))
    exact absurd hd (hx d (h d hm))
  · simpa using hv

theorem parseNumber_hex {ds : List (Nat × Bool)} (hne : ds ≠ []) (h : ∀ d ∈ ds, d.1 < 16) :
    parseNumber ('0' :: 'x' :: ds.map hexChar) = some (Nat.ofDigits 16 (ds.map Prod.fst).reverse) := by
  cases ds with
  | nil => exact absurd rfl hne
  | cons d ds =>
    have hv := hexValue_map 0 h
    simpa [parseNumber] using hv

/-- A number is a decimal or a hexadecimal spelling. -/
theorem parseNumber_eq_some {cs : List Char} {n : Nat} (h : parseNumber cs = some n) :
    (∃ ds : List Nat, ds ≠ [] ∧ (∀ d ∈ ds, d < 10) ∧ cs = ds.map Nat.digitChar) ∨
      ∃ ds : List (Nat × Bool), ds ≠ [] ∧ (∀ d ∈ ds, d.1 < 16) ∧ cs = '0' :: 'x' :: ds.map hexChar := by
  unfold parseNumber at h
  split at h
  · cases h
  · cases h
  · rename_i cs hne
    obtain ⟨ds, hds, rfl⟩ := hexValue_eq_some h
    exact .inr ⟨ds, by rintro rfl; exact hne rfl, hds, rfl⟩
  · rename_i hne _ _
    obtain ⟨ds, hds, rfl⟩ := decimalValue_eq_some h
    exact .inl ⟨ds, by rintro rfl; exact hne rfl, hds, rfl⟩

/-- A line with a space is split at its first one. -/
theorem takeWhile_dropWhile_space {name : List Char} (operand : List Char) (h : ' ' ∉ name) :
    (name ++ ' ' :: operand).takeWhile (fun c => c != ' ') = name ∧
      (name ++ ' ' :: operand).dropWhile (fun c => c != ' ') = ' ' :: operand := by
  have hp : ∀ c ∈ name, (fun c => c != ' ') c = true := by
    intro c hc
    simp only [bne_iff_ne]
    rintro rfl
    exact h hc
  refine ⟨?_, ?_⟩
  · rw [List.takeWhile_append_of_pos hp]; simp
  · rw [List.dropWhile_append_of_pos hp]; simp

end Sys2Proof.Machine
end

