-- ==== Sys2Proof/Laws/State.lean ====
section
/-!
SUPPORT. The state after each named update, field by field: every lemma is true by rfl.
-/

namespace Sys2Proof.Machine

/-! ### `finishOk`: a successful completion -/

@[simp] theorem finishOk_status (s : State) : (finishOk s).status = { s.status with err := .ok } := rfl
@[simp] theorem finishOk_latched (s : State) : (finishOk s).latched = none := rfl
@[simp] theorem finishOk_dataLen (s : State) : (finishOk s).dataLen = s.dataLen := rfl
@[simp] theorem finishOk_cnt (s : State) : (finishOk s).cnt = s.cnt := rfl
@[simp] theorem finishOk_pathLen (s : State) : (finishOk s).pathLen = s.pathLen := rfl
@[simp] theorem finishOk_rbase (s : State) : (finishOk s).rbase = s.rbase := rfl
@[simp] theorem finishOk_rlen (s : State) : (finishOk s).rlen = s.rlen := rfl
@[simp] theorem finishOk_csum (s : State) : (finishOk s).csum = s.csum := rfl
@[simp] theorem finishOk_blkIdx (s : State) : (finishOk s).blkIdx = s.blkIdx := rfl
@[simp] theorem finishOk_path (s : State) : (finishOk s).path = s.path := rfl
@[simp] theorem finishOk_fname (s : State) : (finishOk s).fname = s.fname := rfl
@[simp] theorem finishOk_header (s : State) : (finishOk s).header = s.header := rfl
@[simp] theorem finishOk_block (s : State) : (finishOk s).block = s.block := rfl
@[simp] theorem finishOk_dmem (s : State) : (finishOk s).dmem = s.dmem := rfl
@[simp] theorem finishOk_moves (s : State) : (finishOk s).moves = s.moves := rfl
@[simp] theorem finishOk_latency (s : State) : (finishOk s).latency = s.latency := rfl
@[simp] theorem finishOk_resetPin (s : State) : (finishOk s).resetPin = s.resetPin := rfl
@[simp] theorem finishOk_seen (s : State) : (finishOk s).seen = s.seen := rfl
@[simp] theorem finishOk_draws (s : State) : (finishOk s).draws = s.draws := rfl

/-! ### `finishErr`: a completion with an error -/

@[simp] theorem finishErr_status (e : ErrCode) (s : State) : (finishErr e s).status = { s.status with err := e, errSeen := true } := rfl
@[simp] theorem finishErr_latched (e : ErrCode) (s : State) : (finishErr e s).latched = none := rfl
@[simp] theorem finishErr_dataLen (e : ErrCode) (s : State) : (finishErr e s).dataLen = s.dataLen := rfl
@[simp] theorem finishErr_cnt (e : ErrCode) (s : State) : (finishErr e s).cnt = s.cnt := rfl
@[simp] theorem finishErr_pathLen (e : ErrCode) (s : State) : (finishErr e s).pathLen = s.pathLen := rfl
@[simp] theorem finishErr_rbase (e : ErrCode) (s : State) : (finishErr e s).rbase = s.rbase := rfl
@[simp] theorem finishErr_rlen (e : ErrCode) (s : State) : (finishErr e s).rlen = s.rlen := rfl
@[simp] theorem finishErr_csum (e : ErrCode) (s : State) : (finishErr e s).csum = s.csum := rfl
@[simp] theorem finishErr_blkIdx (e : ErrCode) (s : State) : (finishErr e s).blkIdx = s.blkIdx := rfl
@[simp] theorem finishErr_path (e : ErrCode) (s : State) : (finishErr e s).path = s.path := rfl
@[simp] theorem finishErr_fname (e : ErrCode) (s : State) : (finishErr e s).fname = s.fname := rfl
@[simp] theorem finishErr_header (e : ErrCode) (s : State) : (finishErr e s).header = s.header := rfl
@[simp] theorem finishErr_block (e : ErrCode) (s : State) : (finishErr e s).block = s.block := rfl
@[simp] theorem finishErr_dmem (e : ErrCode) (s : State) : (finishErr e s).dmem = s.dmem := rfl
@[simp] theorem finishErr_moves (e : ErrCode) (s : State) : (finishErr e s).moves = s.moves := rfl
@[simp] theorem finishErr_latency (e : ErrCode) (s : State) : (finishErr e s).latency = s.latency := rfl
@[simp] theorem finishErr_resetPin (e : ErrCode) (s : State) : (finishErr e s).resetPin = s.resetPin := rfl
@[simp] theorem finishErr_seen (e : ErrCode) (s : State) : (finishErr e s).seen = s.seen := rfl
@[simp] theorem finishErr_draws (e : ErrCode) (s : State) : (finishErr e s).draws = s.draws := rfl

/-! ### `clearSegValid`: the side effect of a DATA_LEN or CNT write -/

@[simp] theorem clearSegValid_status (s : State) : (clearSegValid s).status = { s.status with segValid := false } := rfl
@[simp] theorem clearSegValid_latched (s : State) : (clearSegValid s).latched = s.latched := rfl
@[simp] theorem clearSegValid_dataLen (s : State) : (clearSegValid s).dataLen = s.dataLen := rfl
@[simp] theorem clearSegValid_cnt (s : State) : (clearSegValid s).cnt = s.cnt := rfl
@[simp] theorem clearSegValid_pathLen (s : State) : (clearSegValid s).pathLen = s.pathLen := rfl
@[simp] theorem clearSegValid_rbase (s : State) : (clearSegValid s).rbase = s.rbase := rfl
@[simp] theorem clearSegValid_rlen (s : State) : (clearSegValid s).rlen = s.rlen := rfl
@[simp] theorem clearSegValid_csum (s : State) : (clearSegValid s).csum = s.csum := rfl
@[simp] theorem clearSegValid_blkIdx (s : State) : (clearSegValid s).blkIdx = s.blkIdx := rfl
@[simp] theorem clearSegValid_path (s : State) : (clearSegValid s).path = s.path := rfl
@[simp] theorem clearSegValid_fname (s : State) : (clearSegValid s).fname = s.fname := rfl
@[simp] theorem clearSegValid_header (s : State) : (clearSegValid s).header = s.header := rfl
@[simp] theorem clearSegValid_block (s : State) : (clearSegValid s).block = s.block := rfl
@[simp] theorem clearSegValid_dmem (s : State) : (clearSegValid s).dmem = s.dmem := rfl
@[simp] theorem clearSegValid_moves (s : State) : (clearSegValid s).moves = s.moves := rfl
@[simp] theorem clearSegValid_latency (s : State) : (clearSegValid s).latency = s.latency := rfl
@[simp] theorem clearSegValid_resetPin (s : State) : (clearSegValid s).resetPin = s.resetPin := rfl
@[simp] theorem clearSegValid_seen (s : State) : (clearSegValid s).seen = s.seen := rfl
@[simp] theorem clearSegValid_draws (s : State) : (clearSegValid s).draws = s.draws := rfl

/-! ### `setFname`: ENCFN's writes -/

@[simp] theorem setFname_status (v : Vector Byte 11) (s : State) : (setFname v s).status = { s.status with fnValid := true } := rfl
@[simp] theorem setFname_latched (v : Vector Byte 11) (s : State) : (setFname v s).latched = s.latched := rfl
@[simp] theorem setFname_dataLen (v : Vector Byte 11) (s : State) : (setFname v s).dataLen = s.dataLen := rfl
@[simp] theorem setFname_cnt (v : Vector Byte 11) (s : State) : (setFname v s).cnt = s.cnt := rfl
@[simp] theorem setFname_pathLen (v : Vector Byte 11) (s : State) : (setFname v s).pathLen = s.pathLen := rfl
@[simp] theorem setFname_rbase (v : Vector Byte 11) (s : State) : (setFname v s).rbase = s.rbase := rfl
@[simp] theorem setFname_rlen (v : Vector Byte 11) (s : State) : (setFname v s).rlen = s.rlen := rfl
@[simp] theorem setFname_csum (v : Vector Byte 11) (s : State) : (setFname v s).csum = s.csum := rfl
@[simp] theorem setFname_blkIdx (v : Vector Byte 11) (s : State) : (setFname v s).blkIdx = s.blkIdx := rfl
@[simp] theorem setFname_path (v : Vector Byte 11) (s : State) : (setFname v s).path = s.path := rfl
@[simp] theorem setFname_fname (v : Vector Byte 11) (s : State) : (setFname v s).fname = v := rfl
@[simp] theorem setFname_header (v : Vector Byte 11) (s : State) : (setFname v s).header = s.header := rfl
@[simp] theorem setFname_block (v : Vector Byte 11) (s : State) : (setFname v s).block = s.block := rfl
@[simp] theorem setFname_dmem (v : Vector Byte 11) (s : State) : (setFname v s).dmem = s.dmem := rfl
@[simp] theorem setFname_moves (v : Vector Byte 11) (s : State) : (setFname v s).moves = s.moves := rfl
@[simp] theorem setFname_latency (v : Vector Byte 11) (s : State) : (setFname v s).latency = s.latency := rfl
@[simp] theorem setFname_resetPin (v : Vector Byte 11) (s : State) : (setFname v s).resetPin = s.resetPin := rfl
@[simp] theorem setFname_seen (v : Vector Byte 11) (s : State) : (setFname v s).seen = s.seen := rfl
@[simp] theorem setFname_draws (v : Vector Byte 11) (s : State) : (setFname v s).draws = s.draws := rfl

/-! ### `setCsum`: a checksum command's writes -/

@[simp] theorem setCsum_status (v : Byte) (s : State) : (setCsum v s).status = { s.status with csValid := true } := rfl
@[simp] theorem setCsum_latched (v : Byte) (s : State) : (setCsum v s).latched = s.latched := rfl
@[simp] theorem setCsum_dataLen (v : Byte) (s : State) : (setCsum v s).dataLen = s.dataLen := rfl
@[simp] theorem setCsum_cnt (v : Byte) (s : State) : (setCsum v s).cnt = s.cnt := rfl
@[simp] theorem setCsum_pathLen (v : Byte) (s : State) : (setCsum v s).pathLen = s.pathLen := rfl
@[simp] theorem setCsum_rbase (v : Byte) (s : State) : (setCsum v s).rbase = s.rbase := rfl
@[simp] theorem setCsum_rlen (v : Byte) (s : State) : (setCsum v s).rlen = s.rlen := rfl
@[simp] theorem setCsum_csum (v : Byte) (s : State) : (setCsum v s).csum = v := rfl
@[simp] theorem setCsum_blkIdx (v : Byte) (s : State) : (setCsum v s).blkIdx = s.blkIdx := rfl
@[simp] theorem setCsum_path (v : Byte) (s : State) : (setCsum v s).path = s.path := rfl
@[simp] theorem setCsum_fname (v : Byte) (s : State) : (setCsum v s).fname = s.fname := rfl
@[simp] theorem setCsum_header (v : Byte) (s : State) : (setCsum v s).header = s.header := rfl
@[simp] theorem setCsum_block (v : Byte) (s : State) : (setCsum v s).block = s.block := rfl
@[simp] theorem setCsum_dmem (v : Byte) (s : State) : (setCsum v s).dmem = s.dmem := rfl
@[simp] theorem setCsum_moves (v : Byte) (s : State) : (setCsum v s).moves = s.moves := rfl
@[simp] theorem setCsum_latency (v : Byte) (s : State) : (setCsum v s).latency = s.latency := rfl
@[simp] theorem setCsum_resetPin (v : Byte) (s : State) : (setCsum v s).resetPin = s.resetPin := rfl
@[simp] theorem setCsum_seen (v : Byte) (s : State) : (setCsum v s).seen = s.seen := rfl
@[simp] theorem setCsum_draws (v : Byte) (s : State) : (setCsum v s).draws = s.draws := rfl

/-! ### `setCount`: SEGMENT's writes -/

@[simp] theorem setCount_status (v : Word) (s : State) : (setCount v s).status = { s.status with segValid := true } := rfl
@[simp] theorem setCount_latched (v : Word) (s : State) : (setCount v s).latched = s.latched := rfl
@[simp] theorem setCount_dataLen (v : Word) (s : State) : (setCount v s).dataLen = s.dataLen := rfl
@[simp] theorem setCount_cnt (v : Word) (s : State) : (setCount v s).cnt = v := rfl
@[simp] theorem setCount_pathLen (v : Word) (s : State) : (setCount v s).pathLen = s.pathLen := rfl
@[simp] theorem setCount_rbase (v : Word) (s : State) : (setCount v s).rbase = s.rbase := rfl
@[simp] theorem setCount_rlen (v : Word) (s : State) : (setCount v s).rlen = s.rlen := rfl
@[simp] theorem setCount_csum (v : Word) (s : State) : (setCount v s).csum = s.csum := rfl
@[simp] theorem setCount_blkIdx (v : Word) (s : State) : (setCount v s).blkIdx = s.blkIdx := rfl
@[simp] theorem setCount_path (v : Word) (s : State) : (setCount v s).path = s.path := rfl
@[simp] theorem setCount_fname (v : Word) (s : State) : (setCount v s).fname = s.fname := rfl
@[simp] theorem setCount_header (v : Word) (s : State) : (setCount v s).header = s.header := rfl
@[simp] theorem setCount_block (v : Word) (s : State) : (setCount v s).block = s.block := rfl
@[simp] theorem setCount_dmem (v : Word) (s : State) : (setCount v s).dmem = s.dmem := rfl
@[simp] theorem setCount_moves (v : Word) (s : State) : (setCount v s).moves = s.moves := rfl
@[simp] theorem setCount_latency (v : Word) (s : State) : (setCount v s).latency = s.latency := rfl
@[simp] theorem setCount_resetPin (v : Word) (s : State) : (setCount v s).resetPin = s.resetPin := rfl
@[simp] theorem setCount_seen (v : Word) (s : State) : (setCount v s).seen = s.seen := rfl
@[simp] theorem setCount_draws (v : Word) (s : State) : (setCount v s).draws = s.draws := rfl

/-! ### `setBlock`: GETBLK's writes -/

@[simp] theorem setBlock_status (v : Vector Byte 128) (i : BitVec 16) (s : State) : (setBlock v i s).status = { s.status with blkValid := true } := rfl
@[simp] theorem setBlock_latched (v : Vector Byte 128) (i : BitVec 16) (s : State) : (setBlock v i s).latched = s.latched := rfl
@[simp] theorem setBlock_dataLen (v : Vector Byte 128) (i : BitVec 16) (s : State) : (setBlock v i s).dataLen = s.dataLen := rfl
@[simp] theorem setBlock_cnt (v : Vector Byte 128) (i : BitVec 16) (s : State) : (setBlock v i s).cnt = s.cnt := rfl
@[simp] theorem setBlock_pathLen (v : Vector Byte 128) (i : BitVec 16) (s : State) : (setBlock v i s).pathLen = s.pathLen := rfl
@[simp] theorem setBlock_rbase (v : Vector Byte 128) (i : BitVec 16) (s : State) : (setBlock v i s).rbase = s.rbase := rfl
@[simp] theorem setBlock_rlen (v : Vector Byte 128) (i : BitVec 16) (s : State) : (setBlock v i s).rlen = s.rlen := rfl
@[simp] theorem setBlock_csum (v : Vector Byte 128) (i : BitVec 16) (s : State) : (setBlock v i s).csum = s.csum := rfl
@[simp] theorem setBlock_blkIdx (v : Vector Byte 128) (i : BitVec 16) (s : State) : (setBlock v i s).blkIdx = i := rfl
@[simp] theorem setBlock_path (v : Vector Byte 128) (i : BitVec 16) (s : State) : (setBlock v i s).path = s.path := rfl
@[simp] theorem setBlock_fname (v : Vector Byte 128) (i : BitVec 16) (s : State) : (setBlock v i s).fname = s.fname := rfl
@[simp] theorem setBlock_header (v : Vector Byte 128) (i : BitVec 16) (s : State) : (setBlock v i s).header = s.header := rfl
@[simp] theorem setBlock_block (v : Vector Byte 128) (i : BitVec 16) (s : State) : (setBlock v i s).block = v := rfl
@[simp] theorem setBlock_dmem (v : Vector Byte 128) (i : BitVec 16) (s : State) : (setBlock v i s).dmem = s.dmem := rfl
@[simp] theorem setBlock_moves (v : Vector Byte 128) (i : BitVec 16) (s : State) : (setBlock v i s).moves = s.moves := rfl
@[simp] theorem setBlock_latency (v : Vector Byte 128) (i : BitVec 16) (s : State) : (setBlock v i s).latency = s.latency := rfl
@[simp] theorem setBlock_resetPin (v : Vector Byte 128) (i : BitVec 16) (s : State) : (setBlock v i s).resetPin = s.resetPin := rfl
@[simp] theorem setBlock_seen (v : Vector Byte 128) (i : BitVec 16) (s : State) : (setBlock v i s).seen = s.seen := rfl
@[simp] theorem setBlock_draws (v : Vector Byte 128) (i : BitVec 16) (s : State) : (setBlock v i s).draws = s.draws := rfl

/-! ### `setHeader`: BUILDHDR's writes -/

@[simp] theorem setHeader_status (v : Vector Byte 14) (s : State) : (setHeader v s).status = { s.status with hdrValid := true } := rfl
@[simp] theorem setHeader_latched (v : Vector Byte 14) (s : State) : (setHeader v s).latched = s.latched := rfl
@[simp] theorem setHeader_dataLen (v : Vector Byte 14) (s : State) : (setHeader v s).dataLen = s.dataLen := rfl
@[simp] theorem setHeader_cnt (v : Vector Byte 14) (s : State) : (setHeader v s).cnt = s.cnt := rfl
@[simp] theorem setHeader_pathLen (v : Vector Byte 14) (s : State) : (setHeader v s).pathLen = s.pathLen := rfl
@[simp] theorem setHeader_rbase (v : Vector Byte 14) (s : State) : (setHeader v s).rbase = s.rbase := rfl
@[simp] theorem setHeader_rlen (v : Vector Byte 14) (s : State) : (setHeader v s).rlen = s.rlen := rfl
@[simp] theorem setHeader_csum (v : Vector Byte 14) (s : State) : (setHeader v s).csum = s.csum := rfl
@[simp] theorem setHeader_blkIdx (v : Vector Byte 14) (s : State) : (setHeader v s).blkIdx = s.blkIdx := rfl
@[simp] theorem setHeader_path (v : Vector Byte 14) (s : State) : (setHeader v s).path = s.path := rfl
@[simp] theorem setHeader_fname (v : Vector Byte 14) (s : State) : (setHeader v s).fname = s.fname := rfl
@[simp] theorem setHeader_header (v : Vector Byte 14) (s : State) : (setHeader v s).header = v := rfl
@[simp] theorem setHeader_block (v : Vector Byte 14) (s : State) : (setHeader v s).block = s.block := rfl
@[simp] theorem setHeader_dmem (v : Vector Byte 14) (s : State) : (setHeader v s).dmem = s.dmem := rfl
@[simp] theorem setHeader_moves (v : Vector Byte 14) (s : State) : (setHeader v s).moves = s.moves := rfl
@[simp] theorem setHeader_latency (v : Vector Byte 14) (s : State) : (setHeader v s).latency = s.latency := rfl
@[simp] theorem setHeader_resetPin (v : Vector Byte 14) (s : State) : (setHeader v s).resetPin = s.resetPin := rfl
@[simp] theorem setHeader_seen (v : Vector Byte 14) (s : State) : (setHeader v s).seen = s.seen := rfl
@[simp] theorem setHeader_draws (v : Vector Byte 14) (s : State) : (setHeader v s).draws = s.draws := rfl

/-! ### `softReset`: SRESET and the reset input -/

@[simp] theorem softReset_status (s : State) : (softReset s).status = Hb.reset.status := rfl
@[simp] theorem softReset_latched (s : State) : (softReset s).latched = Hb.reset.latched := rfl
@[simp] theorem softReset_dataLen (s : State) : (softReset s).dataLen = Hb.reset.dataLen := rfl
@[simp] theorem softReset_cnt (s : State) : (softReset s).cnt = Hb.reset.cnt := rfl
@[simp] theorem softReset_pathLen (s : State) : (softReset s).pathLen = Hb.reset.pathLen := rfl
@[simp] theorem softReset_rbase (s : State) : (softReset s).rbase = Hb.reset.rbase := rfl
@[simp] theorem softReset_rlen (s : State) : (softReset s).rlen = Hb.reset.rlen := rfl
@[simp] theorem softReset_csum (s : State) : (softReset s).csum = Hb.reset.csum := rfl
@[simp] theorem softReset_blkIdx (s : State) : (softReset s).blkIdx = Hb.reset.blkIdx := rfl
@[simp] theorem softReset_path (s : State) : (softReset s).path = Hb.reset.path := rfl
@[simp] theorem softReset_fname (s : State) : (softReset s).fname = Hb.reset.fname := rfl
@[simp] theorem softReset_header (s : State) : (softReset s).header = Hb.reset.header := rfl
@[simp] theorem softReset_block (s : State) : (softReset s).block = Hb.reset.block := rfl
@[simp] theorem softReset_dmem (s : State) : (softReset s).dmem = s.dmem := rfl
@[simp] theorem softReset_moves (s : State) : (softReset s).moves = s.moves := rfl
@[simp] theorem softReset_latency (s : State) : (softReset s).latency = s.latency := rfl
@[simp] theorem softReset_resetPin (s : State) : (softReset s).resetPin = s.resetPin := rfl
@[simp] theorem softReset_seen (s : State) : (softReset s).seen = s.seen := rfl
@[simp] theorem softReset_draws (s : State) : (softReset s).draws = s.draws := rfl
theorem softReset_toHb (s : State) : (softReset s).toHb = { Hb.reset with dmem := s.dmem } := rfl

/-! ### `nextDraw`: a new draw -/

@[simp] theorem nextDraw_status (s : State) : (nextDraw s).status = s.status := rfl
@[simp] theorem nextDraw_latched (s : State) : (nextDraw s).latched = s.latched := rfl
@[simp] theorem nextDraw_dataLen (s : State) : (nextDraw s).dataLen = s.dataLen := rfl
@[simp] theorem nextDraw_cnt (s : State) : (nextDraw s).cnt = s.cnt := rfl
@[simp] theorem nextDraw_pathLen (s : State) : (nextDraw s).pathLen = s.pathLen := rfl
@[simp] theorem nextDraw_rbase (s : State) : (nextDraw s).rbase = s.rbase := rfl
@[simp] theorem nextDraw_rlen (s : State) : (nextDraw s).rlen = s.rlen := rfl
@[simp] theorem nextDraw_csum (s : State) : (nextDraw s).csum = s.csum := rfl
@[simp] theorem nextDraw_blkIdx (s : State) : (nextDraw s).blkIdx = s.blkIdx := rfl
@[simp] theorem nextDraw_path (s : State) : (nextDraw s).path = s.path := rfl
@[simp] theorem nextDraw_fname (s : State) : (nextDraw s).fname = s.fname := rfl
@[simp] theorem nextDraw_header (s : State) : (nextDraw s).header = s.header := rfl
@[simp] theorem nextDraw_block (s : State) : (nextDraw s).block = s.block := rfl
@[simp] theorem nextDraw_dmem (s : State) : (nextDraw s).dmem = s.dmem := rfl
@[simp] theorem nextDraw_moves (s : State) : (nextDraw s).moves = s.moves := rfl
@[simp] theorem nextDraw_latency (s : State) : (nextDraw s).latency = s.latency := rfl
@[simp] theorem nextDraw_resetPin (s : State) : (nextDraw s).resetPin = s.resetPin := rfl
@[simp] theorem nextDraw_seen (s : State) : (nextDraw s).seen = s.seen := rfl
@[simp] theorem nextDraw_draws (s : State) : (nextDraw s).draws = s.draws + 1 := rfl
@[simp] theorem nextDraw_toHb (s : State) : (nextDraw s).toHb = s.toHb := rfl

/-! ### `dropLatency`: a used-up latency -/

@[simp] theorem dropLatency_status (s : State) : (dropLatency s).status = s.status := rfl
@[simp] theorem dropLatency_latched (s : State) : (dropLatency s).latched = s.latched := rfl
@[simp] theorem dropLatency_dataLen (s : State) : (dropLatency s).dataLen = s.dataLen := rfl
@[simp] theorem dropLatency_cnt (s : State) : (dropLatency s).cnt = s.cnt := rfl
@[simp] theorem dropLatency_pathLen (s : State) : (dropLatency s).pathLen = s.pathLen := rfl
@[simp] theorem dropLatency_rbase (s : State) : (dropLatency s).rbase = s.rbase := rfl
@[simp] theorem dropLatency_rlen (s : State) : (dropLatency s).rlen = s.rlen := rfl
@[simp] theorem dropLatency_csum (s : State) : (dropLatency s).csum = s.csum := rfl
@[simp] theorem dropLatency_blkIdx (s : State) : (dropLatency s).blkIdx = s.blkIdx := rfl
@[simp] theorem dropLatency_path (s : State) : (dropLatency s).path = s.path := rfl
@[simp] theorem dropLatency_fname (s : State) : (dropLatency s).fname = s.fname := rfl
@[simp] theorem dropLatency_header (s : State) : (dropLatency s).header = s.header := rfl
@[simp] theorem dropLatency_block (s : State) : (dropLatency s).block = s.block := rfl
@[simp] theorem dropLatency_dmem (s : State) : (dropLatency s).dmem = s.dmem := rfl
@[simp] theorem dropLatency_moves (s : State) : (dropLatency s).moves = s.moves := rfl
@[simp] theorem dropLatency_latency (s : State) : (dropLatency s).latency = s.latency.tail := rfl
@[simp] theorem dropLatency_resetPin (s : State) : (dropLatency s).resetPin = s.resetPin := rfl
@[simp] theorem dropLatency_seen (s : State) : (dropLatency s).seen = s.seen := rfl
@[simp] theorem dropLatency_draws (s : State) : (dropLatency s).draws = s.draws := rfl
@[simp] theorem dropLatency_toHb (s : State) : (dropLatency s).toHb = s.toHb := rfl

/-! ### `afterCompletion`: what the model adds around a completion -/

@[simp] theorem afterCompletion_status (s : State) : (afterCompletion s).status = s.status := rfl
@[simp] theorem afterCompletion_latched (s : State) : (afterCompletion s).latched = s.latched := rfl
@[simp] theorem afterCompletion_dataLen (s : State) : (afterCompletion s).dataLen = s.dataLen := rfl
@[simp] theorem afterCompletion_cnt (s : State) : (afterCompletion s).cnt = s.cnt := rfl
@[simp] theorem afterCompletion_pathLen (s : State) : (afterCompletion s).pathLen = s.pathLen := rfl
@[simp] theorem afterCompletion_rbase (s : State) : (afterCompletion s).rbase = s.rbase := rfl
@[simp] theorem afterCompletion_rlen (s : State) : (afterCompletion s).rlen = s.rlen := rfl
@[simp] theorem afterCompletion_csum (s : State) : (afterCompletion s).csum = s.csum := rfl
@[simp] theorem afterCompletion_blkIdx (s : State) : (afterCompletion s).blkIdx = s.blkIdx := rfl
@[simp] theorem afterCompletion_path (s : State) : (afterCompletion s).path = s.path := rfl
@[simp] theorem afterCompletion_fname (s : State) : (afterCompletion s).fname = s.fname := rfl
@[simp] theorem afterCompletion_header (s : State) : (afterCompletion s).header = s.header := rfl
@[simp] theorem afterCompletion_block (s : State) : (afterCompletion s).block = s.block := rfl
@[simp] theorem afterCompletion_dmem (s : State) : (afterCompletion s).dmem = s.dmem := rfl
@[simp] theorem afterCompletion_moves (s : State) : (afterCompletion s).moves = s.moves := rfl
@[simp] theorem afterCompletion_latency (s : State) : (afterCompletion s).latency = s.latency.tail := rfl
@[simp] theorem afterCompletion_resetPin (s : State) : (afterCompletion s).resetPin = s.resetPin := rfl
@[simp] theorem afterCompletion_seen (s : State) : (afterCompletion s).seen = s.seen := rfl
@[simp] theorem afterCompletion_draws (s : State) : (afterCompletion s).draws = s.draws + 1 := rfl
@[simp] theorem afterCompletion_toHb (s : State) : (afterCompletion s).toHb = s.toHb := rfl

/-! ### `observe`: a value the host read -/

@[simp] theorem observe_status (o : Seen) (s : State) : (observe o s).status = s.status := rfl
@[simp] theorem observe_latched (o : Seen) (s : State) : (observe o s).latched = s.latched := rfl
@[simp] theorem observe_dataLen (o : Seen) (s : State) : (observe o s).dataLen = s.dataLen := rfl
@[simp] theorem observe_cnt (o : Seen) (s : State) : (observe o s).cnt = s.cnt := rfl
@[simp] theorem observe_pathLen (o : Seen) (s : State) : (observe o s).pathLen = s.pathLen := rfl
@[simp] theorem observe_rbase (o : Seen) (s : State) : (observe o s).rbase = s.rbase := rfl
@[simp] theorem observe_rlen (o : Seen) (s : State) : (observe o s).rlen = s.rlen := rfl
@[simp] theorem observe_csum (o : Seen) (s : State) : (observe o s).csum = s.csum := rfl
@[simp] theorem observe_blkIdx (o : Seen) (s : State) : (observe o s).blkIdx = s.blkIdx := rfl
@[simp] theorem observe_path (o : Seen) (s : State) : (observe o s).path = s.path := rfl
@[simp] theorem observe_fname (o : Seen) (s : State) : (observe o s).fname = s.fname := rfl
@[simp] theorem observe_header (o : Seen) (s : State) : (observe o s).header = s.header := rfl
@[simp] theorem observe_block (o : Seen) (s : State) : (observe o s).block = s.block := rfl
@[simp] theorem observe_dmem (o : Seen) (s : State) : (observe o s).dmem = s.dmem := rfl
@[simp] theorem observe_moves (o : Seen) (s : State) : (observe o s).moves = s.moves := rfl
@[simp] theorem observe_latency (o : Seen) (s : State) : (observe o s).latency = s.latency := rfl
@[simp] theorem observe_resetPin (o : Seen) (s : State) : (observe o s).resetPin = s.resetPin := rfl
@[simp] theorem observe_seen (o : Seen) (s : State) : (observe o s).seen = o :: s.seen := rfl
@[simp] theorem observe_draws (o : Seen) (s : State) : (observe o s).draws = s.draws := rfl
@[simp] theorem observe_toHb (o : Seen) (s : State) : (observe o s).toHb = s.toHb := rfl

/-! ### `resetRelease`: the release of the reset input -/

@[simp] theorem resetRelease_status (s : State) : (resetRelease s).status = s.status := rfl
@[simp] theorem resetRelease_latched (s : State) : (resetRelease s).latched = s.latched := rfl
@[simp] theorem resetRelease_dataLen (s : State) : (resetRelease s).dataLen = s.dataLen := rfl
@[simp] theorem resetRelease_cnt (s : State) : (resetRelease s).cnt = s.cnt := rfl
@[simp] theorem resetRelease_pathLen (s : State) : (resetRelease s).pathLen = s.pathLen := rfl
@[simp] theorem resetRelease_rbase (s : State) : (resetRelease s).rbase = s.rbase := rfl
@[simp] theorem resetRelease_rlen (s : State) : (resetRelease s).rlen = s.rlen := rfl
@[simp] theorem resetRelease_csum (s : State) : (resetRelease s).csum = s.csum := rfl
@[simp] theorem resetRelease_blkIdx (s : State) : (resetRelease s).blkIdx = s.blkIdx := rfl
@[simp] theorem resetRelease_path (s : State) : (resetRelease s).path = s.path := rfl
@[simp] theorem resetRelease_fname (s : State) : (resetRelease s).fname = s.fname := rfl
@[simp] theorem resetRelease_header (s : State) : (resetRelease s).header = s.header := rfl
@[simp] theorem resetRelease_block (s : State) : (resetRelease s).block = s.block := rfl
@[simp] theorem resetRelease_dmem (s : State) : (resetRelease s).dmem = s.dmem := rfl
@[simp] theorem resetRelease_moves (s : State) : (resetRelease s).moves = s.moves := rfl
@[simp] theorem resetRelease_latency (s : State) : (resetRelease s).latency = s.latency := rfl
@[simp] theorem resetRelease_resetPin (s : State) : (resetRelease s).resetPin = false := rfl
@[simp] theorem resetRelease_seen (s : State) : (resetRelease s).seen = s.seen := rfl
@[simp] theorem resetRelease_draws (s : State) : (resetRelease s).draws = s.draws := rfl
@[simp] theorem resetRelease_toHb (s : State) : (resetRelease s).toHb = s.toHb := rfl

/-! ### `loadCommand`: a command put in flight -/

@[simp] theorem loadCommand_status (w : Word) (s : State) : (loadCommand w s).status = s.status := rfl
@[simp] theorem loadCommand_latched (w : Word) (s : State) : (loadCommand w s).latched = some w := rfl
@[simp] theorem loadCommand_dataLen (w : Word) (s : State) : (loadCommand w s).dataLen = s.dataLen := rfl
@[simp] theorem loadCommand_cnt (w : Word) (s : State) : (loadCommand w s).cnt = s.cnt := rfl
@[simp] theorem loadCommand_pathLen (w : Word) (s : State) : (loadCommand w s).pathLen = s.pathLen := rfl
@[simp] theorem loadCommand_rbase (w : Word) (s : State) : (loadCommand w s).rbase = s.rbase := rfl
@[simp] theorem loadCommand_rlen (w : Word) (s : State) : (loadCommand w s).rlen = s.rlen := rfl
@[simp] theorem loadCommand_csum (w : Word) (s : State) : (loadCommand w s).csum = s.csum := rfl
@[simp] theorem loadCommand_blkIdx (w : Word) (s : State) : (loadCommand w s).blkIdx = s.blkIdx := rfl
@[simp] theorem loadCommand_path (w : Word) (s : State) : (loadCommand w s).path = s.path := rfl
@[simp] theorem loadCommand_fname (w : Word) (s : State) : (loadCommand w s).fname = s.fname := rfl
@[simp] theorem loadCommand_header (w : Word) (s : State) : (loadCommand w s).header = s.header := rfl
@[simp] theorem loadCommand_block (w : Word) (s : State) : (loadCommand w s).block = s.block := rfl
@[simp] theorem loadCommand_dmem (w : Word) (s : State) : (loadCommand w s).dmem = s.dmem := rfl
@[simp] theorem loadCommand_moves (w : Word) (s : State) : (loadCommand w s).moves = s.moves := rfl
@[simp] theorem loadCommand_latency (w : Word) (s : State) : (loadCommand w s).latency = 0 :: s.latency := rfl
@[simp] theorem loadCommand_resetPin (w : Word) (s : State) : (loadCommand w s).resetPin = s.resetPin := rfl
@[simp] theorem loadCommand_seen (w : Word) (s : State) : (loadCommand w s).seen = s.seen := rfl
@[simp] theorem loadCommand_draws (w : Word) (s : State) : (loadCommand w s).draws = s.draws := rfl

/-! ### BUSY and the reset values -/

@[simp] theorem busy_of_latched_none {h : Hb} (hl : h.latched = none) : busy h = false := by simp [busy, hl]

@[simp] theorem busy_of_latched_some {h : Hb} {w : Word} (hl : h.latched = some w) : busy h = true := by
  simp [busy, hl]

theorem busy_eq_false_iff (h : Hb) : busy h = false ↔ h.latched = none := by simp [busy]

@[simp] theorem reset_toHb : State.reset.toHb = Hb.reset := rfl

@[simp] theorem hbReset_status : Hb.reset.status = Status.reset := rfl
@[simp] theorem hbReset_latched : Hb.reset.latched = none := rfl
@[simp] theorem hbReset_dataLen : Hb.reset.dataLen = 0 := rfl
@[simp] theorem hbReset_cnt : Hb.reset.cnt = 0 := rfl
@[simp] theorem hbReset_pathLen : Hb.reset.pathLen = 0 := rfl
@[simp] theorem hbReset_rbase : Hb.reset.rbase = 0 := rfl
@[simp] theorem hbReset_rlen : Hb.reset.rlen = 0 := rfl
@[simp] theorem hbReset_csum : Hb.reset.csum = 0 := rfl
@[simp] theorem hbReset_blkIdx : Hb.reset.blkIdx = 0 := rfl
@[simp] theorem hbReset_path : Hb.reset.path = Vector.replicate 256 0 := rfl
@[simp] theorem hbReset_fname : Hb.reset.fname = Vector.replicate 11 0 := rfl
@[simp] theorem hbReset_header : Hb.reset.header = Vector.replicate 14 0 := rfl
@[simp] theorem hbReset_block : Hb.reset.block = Vector.replicate 128 0 := rfl
@[simp] theorem hbReset_dmem : Hb.reset.dmem = [] := rfl
@[simp] theorem statusReset_errSeen : Status.reset.errSeen = false := rfl
@[simp] theorem statusReset_err : Status.reset.err = .ok := rfl
@[simp] theorem statusReset_fnValid : Status.reset.fnValid = false := rfl
@[simp] theorem statusReset_segValid : Status.reset.segValid = false := rfl
@[simp] theorem statusReset_hdrValid : Status.reset.hdrValid = false := rfl
@[simp] theorem statusReset_blkValid : Status.reset.blkValid = false := rfl
@[simp] theorem statusReset_csValid : Status.reset.csValid = false := rfl

end Sys2Proof.Machine
end

