-- ==== Sys2Proof/Laws/Commands.lean ====
section
/-!
SUPPORT. What a command can do: it completes with an error and changes STATUS alone, or it commits the writes of
30_encoding.md R66 and completes (60_exceptions.md R112, R113).
-/

namespace Sys2Proof.Machine

/-- The checks each command passes and the state its writes leave, before completion. -/
def Committed : Instr → State → State → Prop
  | .nop, s, u => u = s
  | .encfn, s, u =>
    s.pathLen.toNat ≤ 256 ∧ ∃ r, encodeName (pathBytes s.toHb) = some r ∧ u = setFname (arrayOf 11 r) s
  | .csumblk, s, u => s.status.blkValid = true ∧ u = setCsum (checksum s.block.toList) s
  | .csumrng, s, u =>
    s.rbase.toNat + s.rlen.toNat ≤ Config.dmemSize ∧
      ∃ bs, gather (memRead s.dmem) s.rbase.toNat s.rlen.toNat = .ok bs ∧ u = setCsum (checksum bs) s
  | .segment, s, u =>
    blockCount s.dataLen.toNat ≤ 65535 ∧ u = setCount (BitVec.ofNat 32 (blockCount s.dataLen.toNat)) s
  | .getblk i, s, u =>
    s.status.segValid = true ∧ i < s.cnt.toNat ∧
      ∃ bs, segmentBytes s.dmem s.dataLen.toNat i = .ok bs ∧ u = setBlock (arrayOf 128 bs) (BitVec.ofNat 16 i) s
  | .buildhdr, s, u =>
    s.status.fnValid = true ∧ s.cnt.toNat ≤ 65535 ∧
      u = setHeader (arrayOf 14 (headerBytes s.fname s.cnt)) s
  | .sreset, s, u => u = softReset s

/-- The one inversion lemma of the commands. -/
theorem exec_next_cases {i : Instr} {s t : State} (h : exec i s = .next t) :
    (∃ e, e ≠ .ok ∧ t = finishErr e s) ∨ ∃ u, Committed i s u ∧ t = finishOk u := by
  cases i with
  | nop => cases h; exact .inr ⟨s, rfl, rfl⟩
  | sreset => cases h; exact .inr ⟨_, rfl, rfl⟩
  | encfn =>
    simp only [exec, execEncfn] at h
    split at h
    · cases h; exact .inl ⟨_, by simp, rfl⟩
    · rename_i hl
      split at h
      · cases h; exact .inl ⟨_, by simp, rfl⟩
      · rename_i r hr
        cases h; exact .inr ⟨_, ⟨by simpa using hl, r, hr, rfl⟩, rfl⟩
  | csumblk =>
    simp only [exec, execCsumblk] at h
    split at h
    · cases h; exact .inl ⟨_, by simp, rfl⟩
    · rename_i hv
      cases h; exact .inr ⟨_, ⟨by simpa using hv, rfl⟩, rfl⟩
  | csumrng =>
    simp only [exec, execCsumrng] at h
    split at h
    · cases h; exact .inl ⟨_, by simp, rfl⟩
    · rename_i hv
      split at h
      · cases h
      · rename_i bs hb
        cases h; exact .inr ⟨_, ⟨by omega, bs, hb, rfl⟩, rfl⟩
  | segment =>
    simp only [exec, execSegment] at h
    split at h
    · cases h; exact .inl ⟨_, by simp, rfl⟩
    · rename_i hv
      cases h; exact .inr ⟨_, ⟨by simpa using hv, rfl⟩, rfl⟩
  | getblk i =>
    simp only [exec, execGetblk] at h
    split at h
    · cases h; exact .inl ⟨_, by simp, rfl⟩
    · rename_i hv
      split at h
      · cases h; exact .inl ⟨_, by simp, rfl⟩
      · rename_i hi
        split at h
        · cases h
        · rename_i bs hb
          cases h; exact .inr ⟨_, ⟨by simpa using hv, by omega, bs, hb, rfl⟩, rfl⟩
  | buildhdr =>
    simp only [exec, execBuildhdr] at h
    split at h
    · cases h; exact .inl ⟨_, by simp, rfl⟩
    · rename_i hv
      split at h
      · cases h; exact .inl ⟨_, by simp, rfl⟩
      · rename_i hc
        cases h; exact .inr ⟨_, ⟨by simpa using hv, by simpa using hc, rfl⟩, rfl⟩

/-- The converse: a command whose checks pass commits its writes and completes. -/
theorem exec_of_committed {i : Instr} {s u : State} (h : Committed i s u) : exec i s = .next (finishOk u) := by
  cases i with
  | nop => cases h; rfl
  | sreset => cases h; rfl
  | encfn =>
    obtain ⟨hl, r, hr, rfl⟩ := h
    have hl' : ¬ s.pathLen.toNat > 256 := by omega
    simp only [exec, execEncfn, hr, if_neg hl', complete]
  | csumblk =>
    obtain ⟨hv, rfl⟩ := h
    simp [exec, execCsumblk, hv, complete]
  | csumrng =>
    obtain ⟨hv, bs, hb, rfl⟩ := h
    have hv' : ¬ s.rbase.toNat + s.rlen.toNat > Config.dmemSize := by omega
    simp only [exec, execCsumrng, hb, if_neg hv', complete]
  | segment =>
    obtain ⟨hv, rfl⟩ := h
    have hv' : ¬ blockCount s.dataLen.toNat > Config.maxBlocks := by simpa using hv
    simp only [exec, execSegment, if_neg hv', complete]
  | getblk i =>
    obtain ⟨hv, hi, bs, hb, rfl⟩ := h
    have hi' : ¬ i ≥ s.cnt.toNat := by omega
    simp only [exec, execGetblk, hv, hb, if_neg hi', complete, Bool.true_eq_false, if_false]
  | buildhdr =>
    obtain ⟨hv, hc, rfl⟩ := h
    have hc' : ¬ s.cnt.toNat > Config.maxBlocks := by simpa using hc
    simp only [exec, execBuildhdr, hv, if_neg hc', complete, Bool.true_eq_false, if_false]

/-- A command that ends in a next state leaves the outside world's side of the state alone. -/
theorem exec_own_fields {i : Instr} {s t : State} (h : exec i s = .next t) :
    t.moves = s.moves ∧ t.latency = s.latency ∧ t.resetPin = s.resetPin ∧ t.seen = s.seen ∧ t.draws = s.draws := by
  rcases exec_next_cases h with ⟨e, -, rfl⟩ | ⟨u, hu, rfl⟩
  · simp
  · cases i <;> simp only [Committed] at hu
    case nop => subst hu; simp
    case sreset => subst hu; simp
    case encfn => obtain ⟨-, r, -, rfl⟩ := hu; simp
    case csumblk => obtain ⟨-, rfl⟩ := hu; simp
    case csumrng => obtain ⟨-, bs, -, rfl⟩ := hu; simp
    case segment => obtain ⟨-, rfl⟩ := hu; simp
    case getblk => obtain ⟨-, -, bs, -, rfl⟩ := hu; simp
    case buildhdr => obtain ⟨-, -, rfl⟩ := hu; simp

/-! ### The checks that raise errors -/

theorem exec_encfn_range {s : State} (h : 256 < s.pathLen.toNat) :
    exec .encfn s = .next (finishErr .rangeError s) := by
  simp only [exec, execEncfn, if_pos h, raise]

theorem exec_encfn_invalid {s : State} (h : s.pathLen.toNat ≤ 256) (hn : encodeName (pathBytes s.toHb) = none) :
    exec .encfn s = .next (finishErr .invalidFilename s) := by
  have hl : ¬ s.pathLen.toNat > 256 := by omega
  simp only [exec, execEncfn, hn, if_neg hl, raise]

theorem exec_csumblk_sequence {s : State} (h : s.status.blkValid = false) :
    exec .csumblk s = .next (finishErr .sequenceError s) := by
  simp [exec, execCsumblk, h, raise]

theorem exec_csumrng_range {s : State} (h : Config.dmemSize < s.rbase.toNat + s.rlen.toNat) :
    exec .csumrng s = .next (finishErr .rangeError s) := by
  simp only [exec, execCsumrng, gt_iff_lt, if_pos h, raise]

theorem exec_segment_tooLarge {s : State} (h : 65535 < blockCount s.dataLen.toNat) :
    exec .segment s = .next (finishErr .fileTooLarge s) := by
  simp only [exec, execSegment, gt_iff_lt, if_pos h, raise]

theorem exec_getblk_sequence {s : State} (i : Nat) (h : s.status.segValid = false) :
    exec (.getblk i) s = .next (finishErr .sequenceError s) := by
  simp [exec, execGetblk, h, raise]

theorem exec_getblk_range {s : State} {i : Nat} (hv : s.status.segValid = true) (h : s.cnt.toNat ≤ i) :
    exec (.getblk i) s = .next (finishErr .rangeError s) := by
  simp only [exec, execGetblk, hv, ge_iff_le, if_pos h, raise, Bool.true_eq_false, if_false]

theorem exec_buildhdr_sequence {s : State} (h : s.status.fnValid = false) :
    exec .buildhdr s = .next (finishErr .sequenceError s) := by
  simp [exec, execBuildhdr, h, raise]

theorem exec_buildhdr_count {s : State} (hv : s.status.fnValid = true) (h : 65535 < s.cnt.toNat) :
    exec .buildhdr s = .next (finishErr .invalidBlockCount s) := by
  simp only [exec, execBuildhdr, hv, gt_iff_lt, if_pos h, raise, Bool.true_eq_false, if_false]

/-! ### The checksum and a segment's bytes -/

@[simp] theorem checksum_nil : checksum [] = 0 := rfl

theorem checksum_foldl (l : List Byte) (a : Byte) : l.foldl (fun acc b => acc + b) a = a + checksum l := by
  induction l generalizing a with
  | nil => simp
  | cons b l ih =>
    simp only [checksum, List.foldl_cons] at *
    rw [ih, ih (0 + b)]
    simp [BitVec.add_assoc]

theorem checksum_cons (b : Byte) (l : List Byte) : checksum (b :: l) = b + checksum l := by
  have h := checksum_foldl l (0 + b)
  simpa [checksum] using h

theorem segmentByte_data {m : Memory} {len a : Nat} (h : a < len) : segmentByte m len a = memRead m a := by
  simp [segmentByte, h]

theorem segmentByte_padding {m : Memory} {len a : Nat} (h : len ≤ a) : segmentByte m len a = .ok 0x00 := by
  simp [segmentByte, Nat.not_lt.2 h]

end Sys2Proof.Machine
end

