-- ==== Sys2Proof/Laws/Encoder.lean ====
section
/-!
SUPPORT. The parts of the filename encoder: the last separator or dot, the final component, the split, the
fields' bytes (40_filename_encoder.md R76 to R82).
-/

namespace Sys2Proof.Machine

/-! ### The last byte that satisfies a test -/

theorem lastIndex_eq_none_iff (p : Byte → Bool) (l : List Byte) :
    lastIndex p l = none ↔ ∀ b ∈ l, p b = false := by
  induction l with
  | nil => simp [lastIndex]
  | cons b l ih =>
    cases h : lastIndex p l with
    | none =>
      have hl := ih.1 h
      simpa [lastIndex, h] using fun _ => hl
    | some k =>
      simp only [lastIndex, h]
      simp only [h, reduceCtorEq, false_iff] at ih
      simp only [reduceCtorEq, List.mem_cons, forall_eq_or_imp, false_iff, not_and]
      exact fun _ => ih

theorem lastIndex_append_cons {p : Byte → Bool} {b : Byte} {r : List Byte} (l : List Byte)
    (hb : p b = true) (hr : ∀ c ∈ r, p c = false) : lastIndex p (l ++ b :: r) = some l.length := by
  induction l with
  | nil => simp [lastIndex, (lastIndex_eq_none_iff p r).2 hr, hb]
  | cons a l ih => simp [lastIndex, ih]

/-- The last index splits the sequence there. -/
theorem lastIndex_eq_some {p : Byte → Bool} {l : List Byte} {k : Nat} (h : lastIndex p l = some k) :
    ∃ b, p b = true ∧ l = l.take k ++ b :: l.drop (k + 1) ∧ ∀ c ∈ l.drop (k + 1), p c = false := by
  induction l generalizing k with
  | nil => simp [lastIndex] at h
  | cons a l ih =>
    simp only [lastIndex] at h
    split at h
    · rename_i j hj
      cases h
      obtain ⟨b, hb, hl, hr⟩ := ih hj
      exact ⟨b, hb, by simpa using hl, by simpa using hr⟩
    · rename_i hn
      split at h
      · rename_i ha
        cases h
        exact ⟨a, ha, by simp, by simpa using (lastIndex_eq_none_iff p l).1 hn⟩
      · cases h

/-! ### The final component and the split -/

theorem finalComponent_append {dir comp : List Byte} (hc : ∀ b ∈ comp, isSeparator b = false)
    (hd : dir = [] ∨ ∃ d b, dir = d ++ [b] ∧ isSeparator b = true) : finalComponent (dir ++ comp) = comp := by
  rcases hd with rfl | ⟨d, b, rfl, hb⟩
  · simp [finalComponent, (lastIndex_eq_none_iff _ _).2 hc]
  · have h : lastIndex isSeparator (d ++ b :: comp) = some d.length := lastIndex_append_cons d hb hc
    simp [finalComponent, h]

/-- Every path is a directory part and its final component. -/
theorem finalComponent_spec (p : List Byte) :
    ∃ dir, p = dir ++ finalComponent p ∧ (dir = [] ∨ ∃ d b, dir = d ++ [b] ∧ isSeparator b = true) ∧
      ∀ b ∈ finalComponent p, isSeparator b = false := by
  unfold finalComponent
  split
  · rename_i h
    exact ⟨[], rfl, .inl rfl, (lastIndex_eq_none_iff _ _).1 h⟩
  · rename_i k h
    obtain ⟨b, hb, hl, hr⟩ := lastIndex_eq_some h
    exact ⟨p.take k ++ [b], by simpa using hl, .inr ⟨_, b, rfl, hb⟩, hr⟩

theorem splitName_no_dot {comp : List Byte} (h : ∀ b ∈ comp, b ≠ 0x2E) : splitName comp = (comp, []) := by
  have hn : lastIndex (fun b => b == 0x2E) comp = none :=
    (lastIndex_eq_none_iff _ _).2 fun b hb => by simpa using h b hb
  simp only [splitName, hn]

theorem splitName_dot (name : List Byte) {ext : List Byte} (h : ∀ b ∈ ext, b ≠ 0x2E) :
    splitName (name ++ 0x2E :: ext) = (name, ext) := by
  have hs : lastIndex (fun b => b == 0x2E) (name ++ 0x2E :: ext) = some name.length :=
    lastIndex_append_cons name (by simp) fun b hb => by simpa using h b hb
  simp only [splitName, hs, List.take_left, Prod.mk.injEq, true_and]
  rw [show name ++ 0x2E :: ext = (name ++ [0x2E]) ++ ext by simp]
  exact List.drop_left' (by simp)

/-- Both parts of a split hold bytes of the component. -/
theorem splitName_subset (comp : List Byte) :
    (∀ b ∈ (splitName comp).1, b ∈ comp) ∧ ∀ b ∈ (splitName comp).2, b ∈ comp := by
  unfold splitName
  split
  · simp
  · exact ⟨fun b => List.mem_of_mem_take, fun b => List.mem_of_mem_drop⟩

/-! ### The fields -/

@[simp] theorem fit_length (l : List Byte) (w : Nat) : (fit l w).length = w := by
  simp [fit]

/-- Byte k of a field: the k-th byte upper-cased, or a space past the end (40_filename_encoder.md R81). -/
theorem fit_getD (l : List Byte) {w k : Nat} (hk : k < w) (d : Byte) :
    (fit l w).getD k d = if h : k < l.length then upper l[k] else 0x20 := by
  unfold fit
  split
  · rename_i h
    have h1 : k < ((l.take w).map upper).length := by simp; omega
    rw [List.getD_append _ _ _ _ h1]
    simp [List.getD, h, hk]
  · rename_i h
    have h1 : ((l.take w).map upper).length ≤ k := by simp; omega
    rw [List.getD_append_right _ _ _ _ h1]
    have h2 : k - ((l.take w).map upper).length < w - min w l.length := by simp; omega
    simp only [List.getD, List.getElem?_replicate, h2, if_true, Option.getD_some]

/-- An upper-cased ASCII byte is ASCII and no lower-case letter. -/
theorem upper_asciiNoLower {b : Byte} (h : b.toNat < 0x80) : asciiNoLower (upper b) := by
  unfold upper asciiNoLower
  have hb : b < 0x80 := by simpa [BitVec.lt_def] using h
  split
  · rename_i hl
    rw [BitVec.le_def, BitVec.le_def] at hl
    rw [BitVec.toNat_sub]
    simp at hl ⊢
    omega
  · rename_i hl
    rw [BitVec.le_def, BitVec.le_def] at hl
    simp at hl ⊢
    omega

theorem fit_asciiNoLower {l : List Byte} {w : Nat} (h : ∀ b ∈ l, b.toNat < 0x80) :
    ∀ b ∈ fit l w, asciiNoLower b := by
  intro b hb
  simp only [fit, List.mem_append, List.mem_map, List.mem_replicate] at hb
  rcases hb with ⟨c, hc, rfl⟩ | ⟨-, rfl⟩
  · exact upper_asciiNoLower (h c (List.mem_of_mem_take hc))
  · simp [asciiNoLower]

/-! ### The whole encoding (40_filename_encoder.md R82) -/

/-- A path encodes exactly when its final component is ASCII with a base name, and then to its two fields. -/
theorem encodeName_eq_some_iff (p r : List Byte) :
    encodeName p = some r ↔
      (∀ b ∈ finalComponent p, b.toNat < 0x80) ∧ (splitName (finalComponent p)).1 ≠ [] ∧
        r = fit (splitName (finalComponent p)).1 8 ++ fit (splitName (finalComponent p)).2 3 := by
  simp only [encodeName, List.any_eq_true, decide_eq_true_eq]
  split
  · rename_i h
    obtain ⟨b, hb, h80⟩ := h
    simp only [reduceCtorEq, false_iff, not_and]
    intro hall
    have h1 := hall b hb
    rw [BitVec.le_def] at h80
    simp at h80
    omega
  · rename_i h
    have hall : ∀ b ∈ finalComponent p, b.toNat < 0x80 := fun b hb => by
      by_contra hc
      exact h ⟨b, hb, by rw [BitVec.le_def]; simpa using hc⟩
    split
    · rename_i h0
      simp [List.length_eq_zero_iff.1 h0]
    · rename_i h0
      simp only [Option.some.injEq]
      constructor
      · rintro rfl
        exact ⟨hall, fun hn => h0 (by simp [hn]), rfl⟩
      · rintro ⟨-, -, rfl⟩
        rfl

theorem encodeName_length {p r : List Byte} (h : encodeName p = some r) : r.length = 11 := by
  obtain ⟨-, -, rfl⟩ := (encodeName_eq_some_iff p r).1 h
  simp

theorem encodeName_asciiNoLower {p r : List Byte} (h : encodeName p = some r) : ∀ b ∈ r, asciiNoLower b := by
  obtain ⟨hall, -, rfl⟩ := (encodeName_eq_some_iff p r).1 h
  obtain ⟨h1, h2⟩ := splitName_subset (finalComponent p)
  intro b hb
  rcases List.mem_append.1 hb with hb | hb
  · exact fit_asciiNoLower (fun c hc => hall c (h1 c hc)) b hb
  · exact fit_asciiNoLower (fun c hc => hall c (h2 c hc)) b hb

end Sys2Proof.Machine
end

