-- ==== Sys2Proof/Laws/Memory.lean ====
section
/-!
SUPPORT. DMEM: a read after a write, the canonical form, `memRead`, and what `gather` answers.
-/

namespace Sys2Proof.Machine

/-! ### Reads after writes (20_memory.md R53, R54) -/

@[simp] theorem lookup_nil (a : Nat) : Memory.lookup [] a = none := rfl

@[simp] theorem lookup_cons (k : Nat) (v : Byte) (m : Memory) (a : Nat) :
    Memory.lookup ((k, v) :: m) a = if k = a then some v else Memory.lookup m a := rfl

@[simp] theorem lookup_store_self (m : Memory) (a : Nat) (b : Byte) :
    Memory.lookup (Memory.store m a b) a = some b := by
  induction m with
  | nil => simp [Memory.store]
  | cons c m ih =>
    obtain ⟨k, v⟩ := c
    simp only [Memory.store]
    split
    · simp
    · split
      · simp
      · have hk : k ≠ a := by omega
        simp [hk, ih]

theorem lookup_store_ne (m : Memory) {a c : Nat} (b : Byte) (h : c ≠ a) :
    Memory.lookup (Memory.store m a b) c = Memory.lookup m c := by
  induction m with
  | nil => simp [Memory.store, h.symm]
  | cons d m ih =>
    obtain ⟨k, v⟩ := d
    simp only [Memory.store]
    split
    · simp [h.symm]
    · split
      · rename_i h1 h2
        subst h2
        simp [h.symm]
      · simp [ih]

/-! ### The canonical form -/

theorem wf_nil : Memory.wf [] := by simp [Memory.wf]

theorem mem_store {m : Memory} {a : Nat} {b : Byte} {c : Host.Cell} (h : c ∈ Memory.store m a b) :
    c = (a, b) ∨ c ∈ m := by
  induction m with
  | nil => simpa [Memory.store] using h
  | cons d m ih =>
    obtain ⟨k, v⟩ := d
    simp only [Memory.store] at h
    split at h
    · simpa using h
    · split at h
      · rcases List.mem_cons.1 h with h | h
        · exact .inl h
        · exact .inr (List.mem_cons_of_mem _ h)
      · rcases List.mem_cons.1 h with h | h
        · exact .inr (by simp [h])
        · exact (ih h).imp id (List.mem_cons_of_mem _)

/-- A store keeps the canonical form. -/
theorem wf_store {m : Memory} {a : Nat} (b : Byte) (hm : Memory.wf m) (ha : a < Config.dmemSize) :
    Memory.wf (Memory.store m a b) := by
  refine ⟨?_, fun c hc => ?_⟩
  · obtain ⟨hp, -⟩ := hm
    induction m with
    | nil => simp [Memory.store]
    | cons d m ih =>
      obtain ⟨k, v⟩ := d
      obtain ⟨hk, hp'⟩ := List.pairwise_cons.1 hp
      simp only [Memory.store]
      split
      · rename_i h1
        refine List.pairwise_cons.2 ⟨fun c hc => ?_, List.pairwise_cons.2 ⟨hk, hp'⟩⟩
        rcases List.mem_cons.1 hc with rfl | hc
        · exact h1
        · exact h1.trans (hk c hc)
      · split
        · rename_i h2
          subst h2
          exact List.pairwise_cons.2 ⟨hk, hp'⟩
        · refine List.pairwise_cons.2 ⟨fun c hc => ?_, ih hp'⟩
          rcases mem_store hc with rfl | hc
          · simp only; omega
          · exact hk c hc
  · rcases mem_store hc with rfl | hc
    · exact ha
    · exact hm.2 c hc

/-! ### The engine's read (20_memory.md R56) -/

theorem memRead_ok_iff (m : Memory) (a : Nat) (b : Byte) :
    memRead m a = .ok b ↔ a < Config.dmemSize ∧ Memory.lookup m a = some b := by
  unfold memRead
  split
  · rename_i h
    cases hl : Memory.lookup m a <;> simp [h]
  · simp [*]

theorem memRead_unwritten {m : Memory} {a : Nat} (ha : a < Config.dmemSize)
    (h : Memory.lookup m a = none) : memRead m a = .error .unwrittenDmemByte := by
  simp only [memRead, if_pos ha, h]

/-! ### Gathering bytes -/

/-- `gather` answers bytes exactly when every one of its reads does, and then those. -/
theorem gather_ok_iff (f : Nat → Except Fault Byte) (a n : Nat) (bs : List Byte) :
    gather f a n = .ok bs ↔ bs.length = n ∧ ∀ k (h : k < bs.length), f (a + k) = .ok bs[k] := by
  induction n generalizing a bs with
  | zero =>
    simp only [gather, Except.ok.injEq, List.length_eq_zero_iff]
    constructor
    · rintro rfl; exact ⟨rfl, fun k h => by simp at h⟩
    · rintro ⟨rfl, -⟩; rfl
  | succ n ih =>
    simp only [gather]
    constructor
    · intro h
      split at h
      · cases h
      · rename_i b hb
        split at h
        · cases h
        · rename_i cs hcs
          cases h
          obtain ⟨hl, hk⟩ := (ih (a + 1) cs).1 hcs
          refine ⟨by simp [hl], fun k hk' => ?_⟩
          cases k with
          | zero => simpa using hb
          | succ k => simpa [Nat.add_assoc, Nat.add_comm 1 k] using hk k (by simpa using hk')
    · rintro ⟨hl, hk⟩
      cases bs with
      | nil => simp at hl
      | cons b cs =>
        have h0 : f a = .ok b := hk 0 (by simp)
        have h1 : gather f (a + 1) n = .ok cs := (ih (a + 1) cs).2
          ⟨by simpa using hl, fun k h => by
            have hk1 : f (a + (k + 1)) = .ok cs[k] := hk (k + 1) (by simpa using h)
            simpa [Nat.add_assoc, Nat.add_comm 1 k] using hk1⟩
        simp [h0, h1]

theorem gather_length {f : Nat → Except Fault Byte} {a n : Nat} {bs : List Byte}
    (h : gather f a n = .ok bs) : bs.length = n := ((gather_ok_iff f a n bs).1 h).1

/-- `gather` answers when every one of its reads does. -/
theorem gather_total {f : Nat → Except Fault Byte} {a n : Nat}
    (h : ∀ k, k < n → ∃ b, f (a + k) = .ok b) : ∃ bs, gather f a n = .ok bs := by
  induction n generalizing a with
  | zero => exact ⟨[], rfl⟩
  | succ n ih =>
    obtain ⟨b, hb⟩ := h 0 (by omega)
    obtain ⟨bs, hbs⟩ := ih (a := a + 1) fun k hk => by
      simpa [Nat.add_assoc, Nat.add_comm 1 k] using h (k + 1) (by omega)
    exact ⟨b :: bs, by simp only [gather, Nat.add_zero] at hb ⊢; simp [hb, hbs]⟩

/-- The fault `gather` answers is one of its reads' faults. -/
theorem gather_error {f : Nat → Except Fault Byte} {a n : Nat} {e : Fault}
    (h : gather f a n = .error e) : ∃ k, k < n ∧ f (a + k) = .error e := by
  induction n generalizing a with
  | zero => cases h
  | succ n ih =>
    simp only [gather] at h
    split at h
    · rename_i e' he
      cases h
      exact ⟨0, by omega, he⟩
    · split at h
      · rename_i e' he
        cases h
        obtain ⟨k, hk, hf⟩ := ih he
        exact ⟨k + 1, by omega, by simpa [Nat.add_assoc, Nat.add_comm 1 k] using hf⟩
      · cases h

theorem gather_congr {f g : Nat → Except Fault Byte} {a n : Nat}
    (h : ∀ k, k < n → f (a + k) = g (a + k)) : gather f a n = gather g a n := by
  induction n generalizing a with
  | zero => rfl
  | succ n ih =>
    have h0 : f a = g a := by simpa using h 0 (by omega)
    have h1 : gather f (a + 1) n = gather g (a + 1) n := ih fun k hk => by
      simpa [Nat.add_assoc, Nat.add_comm 1 k] using h (k + 1) (by omega)
    simp only [gather, h0, h1]

end Sys2Proof.Machine
end

