-- ==== Sys2Proof/Laws/HostPort.lean ====
section
/-!
SUPPORT. What each move of the outside world can do: one inversion lemma per access, and one for all moves.
-/

namespace Sys2Proof.Machine

theorem hostWrite_next {off : BitVec 12} {v : Word} {s t : State} (h : hostWrite off v s = .next t) :
    s.resetPin = false ∧ regAligned off = true ∧ s.latched = none ∧ t = nextDraw (writeReg (regLoc off) v s) := by
  unfold hostWrite at h
  split at h
  · cases h
  · rename_i hp
    split at h
    · cases h
    · rename_i ha
      split at h
      · cases h
      · rename_i hb
        cases h
        exact ⟨by simpa using hp, by simpa using ha, (busy_eq_false_iff _).1 (by simpa using hb), rfl⟩

theorem hostWrite_admitted {off : BitVec 12} {s : State} (v : Word) (hp : s.resetPin = false)
    (ha : regAligned off = true) (hl : s.latched = none) :
    hostWrite off v s = .next (nextDraw (writeReg (regLoc off) v s)) := by
  simp [hostWrite, hp, ha, busy, hl]

theorem hostRead_next {off : BitVec 12} {s t : State} (h : hostRead off s = .next t) :
    s.resetPin = false ∧ regAligned off = true ∧ t = observe (.reg off (readReg s.toHb (regLoc off))) s := by
  unfold hostRead at h
  split at h
  · cases h
  · rename_i hp
    split at h
    · cases h
    · rename_i ha
      cases h
      exact ⟨by simpa using hp, by simpa using ha, rfl⟩

theorem hostRead_admitted {off : BitVec 12} {s : State} (hp : s.resetPin = false) (ha : regAligned off = true) :
    hostRead off s = .next (observe (.reg off (readReg s.toHb (regLoc off))) s) := by
  simp [hostRead, hp, ha]

theorem hostNarrow_not_next {s t : State} : hostNarrow s ≠ .next t := by
  unfold hostNarrow; split <;> simp

theorem hostWriteByte_next {a : BitVec 23} {b : Byte} {s t : State} (h : hostWriteByte a b s = .next t) :
    s.resetPin = false ∧ s.latched = none ∧
      ((a.toNat < Config.dmemSize ∧ t = nextDraw { s with dmem := Memory.store s.dmem a.toNat b }) ∨
        (Config.dmemSize ≤ a.toNat ∧ t = nextDraw s)) := by
  unfold hostWriteByte at h
  split at h
  · cases h
  · rename_i hp
    split at h
    · cases h
    · rename_i hb
      have hl : s.latched = none := (busy_eq_false_iff _).1 (by simpa using hb)
      split at h
      · rename_i ha
        cases h
        exact ⟨by simpa using hp, hl, .inl ⟨ha, rfl⟩⟩
      · rename_i ha
        cases h
        exact ⟨by simpa using hp, hl, .inr ⟨Nat.not_lt.1 ha, rfl⟩⟩

theorem hostReadByte_next {a : BitVec 23} {s t : State} (h : hostReadByte a s = .next t) :
    s.resetPin = false ∧ t = observe (.dmem a (dmemByte s.dmem s.draws a.toNat)) s := by
  unfold hostReadByte at h
  split at h
  · cases h
  · rename_i hp
    cases h
    exact ⟨by simpa using hp, rfl⟩

theorem hostPoll_next {s t : State} (h : hostPoll s = .next t) :
    s.resetPin = false ∧
      t = { observe (.reg 0x004 (statusWord s.toHb)) s with
            moves := if busy s.toHb then .poll :: s.moves else s.moves } := by
  unfold hostPoll at h
  split at h
  · cases h
  · rename_i hp
    cases h
    refine ⟨by simpa using hp, ?_⟩
    split <;> rfl

/-! ### Where the registers with side effects stand (20_memory.md R48, R52) -/

/-- A window's location is no register's. -/
theorem windowLoc_cases (n : Nat) :
    (∃ k, windowLoc n = .path k) ∨ (∃ k, windowLoc n = .fname k) ∨ (∃ k, windowLoc n = .header k) ∨
      (∃ k, windowLoc n = .block k) ∨ windowLoc n = .unmapped := by
  unfold windowLoc
  repeat' split
  all_goals simp

theorem regLoc_eq_cmd_iff (off : BitVec 12) : regLoc off = .cmd ↔ off = 0x000 := by
  rw [← BitVec.toNat_inj, show (0x000 : BitVec 12).toNat = 0 from rfl]
  unfold regLoc
  split <;> simp_all
  rcases windowLoc_cases off.toNat with ⟨k, h⟩ | ⟨k, h⟩ | ⟨k, h⟩ | ⟨k, h⟩ | h <;> simp [h]

theorem regLoc_eq_dataLen_iff (off : BitVec 12) : regLoc off = .dataLen ↔ off = 0x008 := by
  rw [← BitVec.toNat_inj, show (0x008 : BitVec 12).toNat = 8 from rfl]
  unfold regLoc
  split <;> simp_all
  rcases windowLoc_cases off.toNat with ⟨k, h⟩ | ⟨k, h⟩ | ⟨k, h⟩ | ⟨k, h⟩ | h <;> simp [h]

theorem regLoc_eq_cnt_iff (off : BitVec 12) : regLoc off = .cnt ↔ off = 0x00C := by
  rw [← BitVec.toNat_inj, show (0x00C : BitVec 12).toNat = 12 from rfl]
  unfold regLoc
  split <;> simp_all
  rcases windowLoc_cases off.toNat with ⟨k, h⟩ | ⟨k, h⟩ | ⟨k, h⟩ | ⟨k, h⟩ | h <;> simp [h]

/-- Past the registers the map is the windows'. -/
theorem regLoc_window {off : BitVec 12} (h : 0x24 ≤ off.toNat) : regLoc off = windowLoc off.toNat := by
  unfold regLoc
  split <;> first | omega | rfl

/-- A write at a REG offset touches neither DMEM nor the outside world's side. -/
theorem writeReg_rest (loc : RegLoc) (v : Word) (s : State) :
    (writeReg loc v s).dmem = s.dmem ∧ (writeReg loc v s).moves = s.moves ∧
      (writeReg loc v s).latency = s.latency ∧ (writeReg loc v s).resetPin = s.resetPin ∧
      (writeReg loc v s).seen = s.seen ∧ (writeReg loc v s).draws = s.draws := by
  cases loc <;> simp [writeReg]

/-- A write at a REG offset leaves every result array and register, ERR, ERRSEEN and the valid flags but
SEG_VALID alone. -/
theorem writeReg_results (loc : RegLoc) (v : Word) (s : State) :
    (writeReg loc v s).fname = s.fname ∧ (writeReg loc v s).header = s.header ∧
      (writeReg loc v s).block = s.block ∧ (writeReg loc v s).blkIdx = s.blkIdx ∧
      (writeReg loc v s).csum = s.csum ∧
      (writeReg loc v s).status =
        { s.status with segValid := (writeReg loc v s).status.segValid } ∧
      ((writeReg loc v s).status.segValid = true →
        s.status.segValid = true ∧ (writeReg loc v s).cnt = s.cnt ∧ (writeReg loc v s).dataLen = s.dataLen) := by
  cases loc <;> simp [writeReg]

/-- What one move of the outside world does when it is admitted. -/
def Performed : Move → State → State → Prop
  | .wr off v, s, t =>
    s.resetPin = false ∧ regAligned off = true ∧ s.latched = none ∧ t = nextDraw (writeReg (regLoc off) v s)
  | .rd off, s, t =>
    s.resetPin = false ∧ regAligned off = true ∧ t = observe (.reg off (readReg s.toHb (regLoc off))) s
  | .wrb a b, s, t =>
    s.resetPin = false ∧ s.latched = none ∧
      ((a.toNat < Config.dmemSize ∧ t = nextDraw { s with dmem := Memory.store s.dmem a.toNat b }) ∨
        (Config.dmemSize ≤ a.toNat ∧ t = nextDraw s))
  | .rdb a, s, t => s.resetPin = false ∧ t = observe (.dmem a (dmemByte s.dmem s.draws a.toNat)) s
  | .poll, s, t =>
    s.resetPin = false ∧
      t = { observe (.reg 0x004 (statusWord s.toHb)) s with
            moves := if busy s.toHb then .poll :: s.moves else s.moves }
  | .narrow _, _, _ => False
  | .powerOn, s, t => t = powerOn s
  | .resetAssert, s, t => t = resetAssert s
  | .resetRelease, s, t => t = resetRelease s

theorem performMove_next {m : Move} {s t : State} (h : performMove m s = .next t) : Performed m s t := by
  cases m with
  | wr off v => exact hostWrite_next h
  | rd off => exact hostRead_next h
  | wrb a b => exact hostWriteByte_next h
  | rdb a => exact hostReadByte_next h
  | poll => exact hostPoll_next h
  | narrow off => exact hostNarrow_not_next h
  | powerOn => cases h; rfl
  | resetAssert => cases h; rfl
  | resetRelease => cases h; rfl

/-! ### The hardware resets -/

theorem powerOn_toHb (s : State) : (powerOn s).toHb = Hb.reset := rfl

theorem resetAssert_toHb (s : State) : (resetAssert s).toHb = { Hb.reset with dmem := s.dmem } := by
  unfold resetAssert abandon
  split <;> rfl

@[simp] theorem resetAssert_resetPin (s : State) : (resetAssert s).resetPin = true := rfl

@[simp] theorem powerOn_resetPin (s : State) : (powerOn s).resetPin = s.resetPin := by
  unfold powerOn abandon
  split <;> rfl

end Sys2Proof.Machine
end

