-- ==== Sys2Proof/Laws/PerInstr.lean ====
section
/-!
SUPPORT. Statements made for every instruction, one lemma a constructor.
-/

namespace Sys2Proof.Laws.RowEncoding

/-- A well-formed instruction's word has the fixed bits of its row of spec/opcode_table.json (30_encoding.md R67). -/
def Statement (i : Instr) : Prop := i.wellFormed = true → encode i &&& rowMask i = rowMatch i

theorem nop : Statement .nop := fun _ => by decide
theorem encfn : Statement .encfn := fun _ => by decide
theorem csumblk : Statement .csumblk := fun _ => by decide
theorem csumrng : Statement .csumrng := fun _ => by decide
theorem segment : Statement .segment := fun _ => by decide

theorem getblk (index : Nat) : Statement (.getblk index) := by
  intro h
  have hi : index < 65536 := by simpa [Instr.wellFormed] using h
  apply BitVec.eq_of_getLsbD_eq
  intro k hk
  simp only [encode, rowMask, rowMatch, BitVec.getLsbD_and, BitVec.getLsbD_or, BitVec.getLsbD_shiftLeft,
    BitVec.getLsbD_ofNat]
  by_cases h8 : k < 8
  · have : k = 0 ∨ k = 1 ∨ k = 2 ∨ k = 3 ∨ k = 4 ∨ k = 5 ∨ k = 6 ∨ k = 7 := by omega
    rcases this with rfl | rfl | rfl | rfl | rfl | rfl | rfl | rfl <;> simp
  · by_cases h24 : k < 24
    · have hm : (0xFF0000FF#32).getLsbD k = false := by
        have : ∀ j : Fin 32, 8 ≤ j.val → j.val < 24 → (0xFF0000FF#32).getLsbD j.val = false := by decide
        exact this ⟨k, hk⟩ (by simpa using h8) h24
      have h5 : (5#32).getLsbD k = false := by
        have : ∀ j : Fin 32, 8 ≤ j.val → (5#32).getLsbD j.val = false := by decide
        exact this ⟨k, hk⟩ (by simpa using h8)
      simp [hm, h5]
    · have h5 : (5#32).getLsbD k = false := by
        have : ∀ j : Fin 32, 8 ≤ j.val → (5#32).getLsbD j.val = false := by decide
        exact this ⟨k, hk⟩ (by simpa using h8)
      have hb : index.testBit (k - 8) = false :=
        Nat.testBit_lt_two_pow (lt_of_lt_of_le hi (by
          calc (65536 : Nat) = 2 ^ 16 := by norm_num
            _ ≤ 2 ^ (k - 8) := Nat.pow_le_pow_right (by norm_num) (by omega)))
      simp [h5, hb]

theorem buildhdr : Statement .buildhdr := fun _ => by decide
theorem sreset : Statement .sreset := fun _ => by decide

end Sys2Proof.Laws.RowEncoding
end

