-- ==== Sys2Proof/Laws/Step.lean ====
section
/-!
SUPPORT. What one step can do: the engine completes the command in flight, the outside world makes a move, or
nothing is left to happen.
-/

namespace Sys2Proof.Machine

theorem onNext_eq_next {f : State → State} {o : Host.Outcome State Fault Refusal} {t : State} :
    onNext f o = .next t ↔ ∃ u, o = .next u ∧ t = f u := by
  cases o <;> simp [onNext, eq_comm]

theorem execWord_instr {w : Word} {i : Instr} (h : decode w = .instr i) (s : State) : execWord w s = exec i s := by
  simp [execWord, h]

theorem execWord_illegal {w : Word} {r : Illegal} (h : decode w = .illegal r) (s : State) :
    execWord w s = .next (finishErr .illegalCommand s) := by
  simp [execWord, h, raise]

theorem execWord_next {w : Word} {s u : State} (h : execWord w s = .next u) :
    (∃ i, decode w = .instr i ∧ exec i s = .next u) ∨
      ∃ r, decode w = .illegal r ∧ u = finishErr .illegalCommand s := by
  cases hd : decode w with
  | instr i => exact .inl ⟨i, rfl, by rwa [execWord_instr hd] at h⟩
  | illegal r =>
    rw [execWord_illegal hd] at h
    cases h
    exact .inr ⟨r, rfl, rfl⟩

/-! ### Whose turn it is -/

theorem step_idle {s : State} (h : s.latched = none) : step s = worldStep s := by
  simp [step, h]

theorem step_waiting {s : State} {w : Word} {k : Nat} {rest : List Nat} (h : s.latched = some w)
    (hl : s.latency = (k + 1) :: rest) : step s = worldStep { s with latency := k :: rest } := by
  simp [step, h, hl]

theorem step_completes {s : State} {w : Word} (h : completesWord s w) : step s = engineStep w s := by
  obtain ⟨h, hl⟩ := h
  unfold step
  simp only [h]
  unfold engineDue at hl
  split
  · rename_i k rest hk
    simp [hk] at hl
  · rfl

/-- The state the outside world moves from, when a step is its own. -/
def WorldTurn (s u : State) : Prop :=
  (s.latched = none ∧ u = s) ∨
    ∃ w k rest, s.latched = some w ∧ s.latency = (k + 1) :: rest ∧ u = { s with latency := k :: rest }

/-- The one inversion lemma of `step`. -/
theorem step_next_cases {s t : State} (h : step s = .next t) :
    (∃ w u, completesWord s w ∧ execWord w s = .next u ∧ t = afterCompletion u) ∨
      ∃ u, WorldTurn s u ∧
        ((u.moves = [] ∧ t = u) ∨ ∃ m ms, u.moves = m :: ms ∧ Performed m { u with moves := ms } t) := by
  have world : ∀ u, worldStep u = .next t →
      (u.moves = [] ∧ t = u) ∨ ∃ m ms, u.moves = m :: ms ∧ Performed m { u with moves := ms } t := by
    intro u hu
    unfold worldStep at hu
    split at hu
    · rename_i hm
      cases hu
      exact .inl ⟨hm, rfl⟩
    · rename_i m ms hm
      exact .inr ⟨m, ms, hm, performMove_next hu⟩
  cases hl : s.latched with
  | none =>
    rw [step_idle hl] at h
    exact .inr ⟨s, .inl ⟨hl, rfl⟩, world s h⟩
  | some w =>
    by_cases hd : engineDue s
    · rw [step_completes ⟨hl, hd⟩] at h
      obtain ⟨u, hu, rfl⟩ := onNext_eq_next.1 h
      exact .inl ⟨w, u, ⟨hl, hd⟩, hu, rfl⟩
    · cases hk : s.latency with
      | nil => simp [engineDue, hk] at hd
      | cons k rest =>
        cases k with
        | zero => simp [engineDue, hk] at hd
        | succ k =>
          rw [step_waiting hl hk] at h
          exact .inr ⟨_, .inr ⟨w, k, rest, hl, hk, rfl⟩, world _ h⟩

/-- The outside world's turn changes no more than the latency of the command in flight. -/
theorem worldTurn_toHb {s u : State} (h : WorldTurn s u) : u.toHb = s.toHb ∧ u.moves = s.moves ∧ u.resetPin = s.resetPin := by
  rcases h with ⟨-, rfl⟩ | ⟨w, k, rest, -, -, rfl⟩ <;> exact ⟨rfl, rfl, rfl⟩

/-- A run of one step is that step. -/
theorem run_one (s : State) : Host.Core.run Sys2Proof.core 1 s = step s := by
  have h : Host.Core.step Sys2Proof.core s = step s := rfl
  simp only [Host.Core.run, h]
  cases step s <;> rfl

/-- A run goes on from the state its first step leaves. -/
theorem run_succ_next {k : Nat} {s t : State} (h : step s = .next t) :
    Host.Core.run Sys2Proof.core (k + 1) s = Host.Core.run Sys2Proof.core k t := by
  have h' : Host.Core.step Sys2Proof.core s = .next t := h
  simp only [Host.Core.run, h']

theorem withFetchWord_completes (s : State) (w : Nat) :
    completesWord (s.withFetchWord 32 w) (BitVec.ofNat 32 (w % 2 ^ 32)) := ⟨rfl, rfl⟩

end Sys2Proof.Machine
end

