-- ==== Sys2Proof/Tests/Slice0.lean ====
section
/-!
SUPPORT. Tests of the model on small states, and for every statement of the obligations that has hypotheses a state
and operands that meet them. Expected values come from spec/95_test_vectors.md and the worked examples and corner
cases of the rules each test cites.
-/

namespace Sys2Proof.Tests

open Sys2Proof.Machine

-- One theorem at a time: the many small kernel evaluations below would otherwise hold a thread each.
set_option Elab.async false

/-! ### Small states -/

/-- The bytes of an ASCII text. -/
def text (t : String) : List Byte := t.toList.map fun c => BitVec.ofNat 8 c.toNat

/-- Reset, with a path written. -/
def onPath (p : List Byte) : State :=
  { State.reset with path := arrayOf 256 p, pathLen := BitVec.ofNat 32 p.length }

/-- Reset, with DATA_LEN = `len` segmented and `d` written from DMEM address `base`. -/
def onFile (len base : Nat) (d : List Byte) : State :=
  { State.reset with
    dmem := ((List.range d.length).map (base + ·)).zip d
    dataLen := BitVec.ofNat 32 len
    cnt := BitVec.ofNat 32 ((len + 127) / 128)
    status := { Status.reset with segValid := true } }

/-- Reset, with a segment in BLOCK. -/
def onBlock (b : List Byte) : State :=
  { State.reset with block := arrayOf 128 b, status := { Status.reset with blkValid := true } }

/-- Reset, with a name in FNAME and a block count. -/
def onName (n : List Byte) (count : Nat) : State :=
  { State.reset with
    fname := arrayOf 11 n, cnt := BitVec.ofNat 32 count, status := { Status.reset with fnValid := true } }

/-- Reset, with the first bytes of DMEM and a range to sum. -/
def onRange (d : List Byte) (base len : Nat) : State :=
  { State.reset with
    dmem := (List.range d.length).zip d, rbase := BitVec.ofNat 32 base, rlen := BitVec.ofNat 32 len }

/-- Reset, with a command in flight. -/
def inFlight (w : Word) (latency : List Nat) (moves : List Move) : State :=
  { State.reset with latched := some w, latency := latency, moves := moves }

/-- Reset, with moves of the outside world to come. -/
def facing (moves : List Move) : State := { State.reset with moves := moves }

/-- What is read off a next state. -/
def after {α : Type} (o : Host.Outcome State Fault Refusal) (f : State → α) : Option α :=
  match o with
  | .next t => some (f t)
  | .fault _ => none
  | .refused _ => none

/-- A 3-byte file, written and segmented, with its name and its header. -/
def ready : State :=
  { onFile 3 0 [0xFF, 0x01, 0x7F] with
    fname := arrayOf 11 (text "HEX     COM")
    header := arrayOf 14 (0x01 :: text "HEX     COM" ++ [0x01, 0x00])
    status := { Status.reset with fnValid := true, segValid := true, hdrValid := true } }

/-! ### WellFormed: the one check refuses an ill-formed term -/

theorem test_wellFormed_refuses_index_65536 : (Instr.getblk 65536).wellFormed = false := by decide
theorem test_wellFormed_admits_index_65535 : (Instr.getblk 65535).wellFormed = true := by decide

/-! ### Decoding: words written out from the format of 30_encoding.md R63, RSV then IMM then OP -/

theorem test_decode_nop : decode 0b00000000_0000000000000000_00000000 = .instr .nop := by decide
theorem test_decode_encfn : decode 0b00000000_0000000000000000_00000001 = .instr .encfn := by decide
theorem test_decode_csumblk : decode 0b00000000_0000000000000000_00000010 = .instr .csumblk := by decide
theorem test_decode_csumrng : decode 0b00000000_0000000000000000_00000011 = .instr .csumrng := by decide
theorem test_decode_segment : decode 0b00000000_0000000000000000_00000100 = .instr .segment := by decide
theorem test_decode_getblk :
    decode 0b00000000_0001001000110100_00000101 = .instr (.getblk 0x1234) := by decide
theorem test_decode_getblk_last :
    decode 0b00000000_1111111111111111_00000101 = .instr (.getblk 65535) := by decide
theorem test_decode_buildhdr : decode 0b00000000_0000000000000000_00000110 = .instr .buildhdr := by decide
theorem test_decode_sreset : decode 0b00000000_0000000000000000_00001111 = .instr .sreset := by decide

/-- The reserved opcodes at the ends of their ranges (R68; 95_test_vectors.md 2.6). -/
theorem test_decode_reserved_opcodes :
    decode 0x07 = .illegal .reservedOpcode ∧ decode 0x0E = .illegal .reservedOpcode ∧
    decode 0x10 = .illegal .reservedOpcode ∧ decode 0xFF = .illegal .reservedOpcode := by decide

/-- IMM on SRESET, IMM on ENCFN, and RSV on GETBLK and ENCFN (R69; 95_test_vectors.md 2.4, 2.6). -/
theorem test_decode_reserved_fields :
    decode 0x0000010F = .illegal .immNotZero ∧ decode 0x00000101 = .illegal .immNotZero ∧
    decode 0x01000005 = .illegal .reservedField ∧ decode 0x01000001 = .illegal .reservedField := by decide

theorem test_decodeTableWord :
    decodeTableWord 32 0x00000705 = some (.getblk 7) ∧ decodeTableWord 32 0x00000007 = none := by decide

/-- The spellings of 30_encoding.md R72 and R75. -/
theorem test_assemble :
    assemble "ENCFN".toList = some 0x00000001 ∧ assemble "GETBLK 7".toList = some 0x00000705 ∧
    assemble "GETBLK 0x1234".toList = some 0x00123405 ∧ assemble "GETBLK 65536".toList = none ∧
    assemble "NOP 1".toList = none ∧ assemble "nop".toList = none := by decide +kernel

/-! ### One step of each command -/

/-- 0x00000762, then NOP (95_test_vectors.md 2.8). -/
theorem test_nop :
    after (step (State.withFetchWord
      { State.reset with
        status := { Status.reset with fnValid := true, segValid := true, hdrValid := true, err := .rangeError,
                                      errSeen := true } } 32 0x00000000))
      (fun t => statusWord t.toHb) = some 0x00000702 := by decide +kernel

/-- SRESET clears ERRSEEN and CNT and keeps DMEM (95_test_vectors.md 2.8). -/
theorem test_sreset :
    after (step (State.withFetchWord
      { onRange [0xFF] 0 1 with cnt := 8, status := { Status.reset with errSeen := true } } 32 0x0000000F))
      (fun t => (statusWord t.toHb, t.cnt, t.rlen, t.dmem)) = some (0, 0, 0, [(0, 0xFF)]) := by decide +kernel

/-- Source W1, with directories and lower case (95_test_vectors.md 2.1). -/
theorem test_encfn :
    after (exec .encfn (onPath (text "/home/user/zork2.com"))) (fun t => (statusWord t.toHb, t.fname.toList)) =
      some (0x100, [0x5A, 0x4F, 0x52, 0x4B, 0x32, 0x20, 0x20, 0x20, 0x43, 0x4F, 0x4D]) := by decide +kernel

/-- The split is at the last dot, and an empty extension is legal (95_test_vectors.md 2.1). -/
theorem test_encfn_dots :
    after (exec .encfn (onPath (text "x\\y.z/a.b.c"))) (fun t => t.fname.toList) = some (text "A.B     C  ") ∧
    after (exec .encfn (onPath (text "FOO."))) (fun t => t.fname.toList) = some (text "FOO        ") := by
  decide +kernel

/-- 128 × FF, and 80 81 82 83 before zeros (95_test_vectors.md 2.2). -/
theorem test_csumblk :
    after (exec .csumblk (onBlock (List.replicate 128 0xFF))) (fun t => (statusWord t.toHb, t.csum)) =
      some (0x1800, 0x80) ∧
    after (exec .csumblk (onBlock [0x80, 0x81, 0x82, 0x83])) (fun t => t.csum) = some 0x06 := by decide +kernel

/-- FF 01 7F over 3 and over 2 bytes (95_test_vectors.md 2.2). -/
theorem test_csumrng :
    after (exec .csumrng (onRange [0xFF, 0x01, 0x7F] 0 3)) (fun t => (statusWord t.toHb, t.csum)) =
      some (0x1000, 0x7F) ∧
    after (exec .csumrng (onRange [0xFF, 0x01, 0x7F] 0 2)) (fun t => t.csum) = some 0x00 := by decide +kernel

/-- The range check at its boundary and past 32 bits (95_test_vectors.md 2.2). -/
theorem test_csumrng_range :
    after (exec .csumrng (onRange [] 8388480 0)) (fun t => (t.status.err, t.csum)) = some (.ok, 0x00) ∧
    after (exec .csumrng (onRange [] 8388479 2)) (fun t => t.status.err) = some .rangeError ∧
    after (exec .csumrng (onRange [] 0xFFFFFFFF 1)) (fun t => t.status.err) = some .rangeError := by decide +kernel

/-- DATA_LEN = 129, 900, 1024, 8,388,480 and past it (95_test_vectors.md 2.3). -/
theorem test_segment :
    ([0, 1, 128, 129, 900, 1024, 8388480, 8388481, 0xFFFFFFFF] : List Nat).map
      (fun n => after (exec .segment { State.reset with dataLen := BitVec.ofNat 32 n })
        (fun t => (statusWord t.toHb, t.cnt))) =
      [some (0x200, 0), some (0x200, 1), some (0x200, 1), some (0x200, 2), some (0x200, 8), some (0x200, 8),
       some (0x200, 65535), some (0x22, 0), some (0x22, 0)] := by decide +kernel

/-- Segment 7 of a 900-byte file (95_test_vectors.md 2.4). -/
theorem test_getblk :
    after (step (State.withFetchWord (onFile 900 896 [0x80, 0x81, 0x82, 0x83]) 32 0x00000705))
      (fun t => (statusWord t.toHb, t.blkIdx, windowWord t.block 0, windowWord t.block 1)) =
      some (0xA00, 7, 0x83828180, 0x00000000) := by decide +kernel

/-- i = CNT, and an empty file (95_test_vectors.md 2.4). -/
theorem test_getblk_range :
    after (exec (.getblk 8) (onFile 900 0 [])) (fun t => t.status.err) = some .rangeError ∧
    after (exec (.getblk 0) (onFile 0 0 [])) (fun t => t.status.err) = some .rangeError := by decide +kernel

/-- The count 258 lies low byte first; the windows show the header (95_test_vectors.md 2.5). -/
theorem test_buildhdr :
    after (exec .buildhdr (onName (text "ZORK2   COM") 258))
      (fun t => (statusWord t.toHb, readReg t.toHb (regLoc 0x210), readReg t.toHb (regLoc 0x21C))) =
      some (0x500, 0x524F5A01, 0x00000102) := by decide +kernel

/-- CNT = 65536 is refused by the count check; FN_VALID = 0 outranks it (95_test_vectors.md 2.5). -/
theorem test_buildhdr_errors :
    after (exec .buildhdr (onName (text "ZORK2   COM") 65536)) (fun t => t.status.err) = some .invalidBlockCount ∧
    after (exec .buildhdr { State.reset with cnt := 65536 }) (fun t => t.status.err) = some .sequenceError := by
  decide +kernel

/-- An illegal word sets IllegalCommand and resets nothing (95_test_vectors.md 2.6). -/
theorem test_illegal_word :
    after (step (State.withFetchWord (onRange [0xFF] 0 1) 32 0x0000010F))
      (fun t => (statusWord t.toHb, t.rlen)) = some (0x42, 1) := by decide +kernel

/-! ### The host's accesses (95_test_vectors.md 2.7) -/

theorem test_host_path_write :
    after (hostWrite 0x100 0x4B524F5A State.reset) (fun t => t.path.toList.take 5) =
      some [0x5A, 0x4F, 0x52, 0x4B, 0x00] := by decide +kernel

theorem test_host_fname_read :
    readReg (onName (text "ZORK2   COM") 0).toHb (regLoc 0x208) = 0x004D4F43 := by decide +kernel

theorem test_host_write_no_storage :
    after (hostWriteByte 0x7FFF80 0x55 State.reset) (fun t => t.dmem) = some [] ∧
    after (hostReadByte 0x7FFF80 State.reset) (fun t => t.seen) = some [.dmem 0x7FFF80 0x00] := by decide +kernel

/-- A poll while a command is in flight sees BUSY = 1 and polls again (20_memory.md R59). -/
theorem test_poll_while_busy :
    after (step (inFlight 0 [1] [.poll])) (fun t => (t.seen, t.moves, t.latency)) =
      some ([.reg 0x004 0x00000001], [.poll], [0]) := by decide +kernel

/-- The expansion of `WRPATH "ZORK2.COM"` (30_encoding.md R74; the words of 95_test_vectors.md P1). -/
theorem test_wrpath :
    hostWrPath (text "ZORK2.COM") =
      [.wr 0x100 0x4B524F5A, .wr 0x104 0x4F432E32, .wr 0x108 0x0000004D, .wr 0x010 9] := by decide +kernel

/-! ### Witnesses: the hypotheses of the statements can be met -/

theorem witness_DecodeOfEncodeIsTheInstruction :
    (Instr.getblk 65535).wellFormed = true ∧ Instr.sreset.wellFormed = true := by decide

theorem witness_EncodeOfDecodedIsTheWord :
    decode 0x00FFFF05 = .instr (.getblk 65535) ∧ decode 0x0000000F = .instr .sreset := by decide

theorem witness_WordSelectsItsTableRow :
    decode 0x00123405 = .instr (.getblk 0x1234) ∧
    (0x00123405 : Word) &&& rowMask (.getblk 0x1234) = rowMatch (.getblk 0x1234) ∧
    (0x00123405 : Word) &&& rowMask (.getblk 0) = rowMatch (.getblk 0) := by decide

theorem witness_ReservedWordsAreIllegalCommands (i : Instr) :
    (0x07 : Word) &&& rowMask i ≠ rowMatch i ∧ (0x0E : Word) &&& rowMask i ≠ rowMatch i ∧
    (0x10 : Word) &&& rowMask i ≠ rowMatch i ∧ (0xFF : Word) &&& rowMask i ≠ rowMatch i ∧
    (0x01000005 : Word) &&& rowMask i ≠ rowMatch i ∧ (0x00000101 : Word) &&& rowMask i ≠ rowMatch i := by
  cases i <;> simp only [rowMask, rowMatch] <;> decide

theorem witness_AssembledWordsDecodeToTheirCommand :
    assemble "GETBLK 65535".toList = some 0x00FFFF05 ∧ assemble "GETBLK 0xFFff".toList = some 0x00FFFF05 ∧
    assemble "SRESET".toList = some 0x0000000F := by decide +kernel

theorem witness_AssembledWordsDecodeToTheirCommand_rejected :
    (∀ d ∈ [6, 5, 5, 3, 6], d < 10) ∧ 65536 ≤ Nat.ofDigits 10 [6, 5, 5, 3, 6].reverse ∧
    (∀ d ∈ [(1, false), (0, false), (0, false), (0, true), (0, true)], d.1 < 16) ∧
    65536 ≤ Nat.ofDigits 16 ([(1, false), (0, false), (0, false), (0, true), (0, true)].map Prod.fst).reverse ∧
    ' ' ∉ "NOP".toList ∧ "NOP".toList ≠ "GETBLK".toList := by decide +kernel

theorem witness_StepRunsTheDecodedCommand :
    (State.withFetchWord State.reset 32 0x00FFFF05).latched = some 0x00FFFF05 ∧
    (State.withFetchWord State.reset 32 0x00FFFF05).latency.headD 0 = 0 ∧
    decode 0x00FFFF05 = .instr (.getblk 65535) := by decide +kernel

theorem witness_StepRunsTheDecodedCommand_illegal :
    (inFlight 0x07 [] []).latched = some 0x07 ∧ (inFlight 0x07 [] []).latency.headD 0 = 0 ∧
    decode 0x07 = .illegal .reservedOpcode := by decide +kernel

theorem witness_CmdWriteStartsTheCommand :
    (facing [.wr 0x000 0x01]).latched = none ∧ (facing [.wr 0x000 0x01]).resetPin = false ∧
    (facing [.wr 0x000 0x01]).moves = .wr 0x000 0x01 :: [] := by decide +kernel

theorem witness_BusyFollowsCommandStartAndEnd_start :
    busy (facing [.wr 0x000 0x01]).toHb = false ∧
    after (step (facing [.wr 0x000 0x01])) (fun t => busy t.toHb) = some true := by decide +kernel

theorem witness_BusyFollowsCommandStartAndEnd_end :
    busy (inFlight 0 [] []).toHb = true ∧
    after (step (inFlight 0 [] [])) (fun t => busy t.toHb) = some false ∧
    after (step (inFlight 0 [1] [.powerOn])) (fun t => busy t.toHb) = some false := by decide +kernel

theorem witness_NothingOfACommandShowsBeforeCompletion :
    ∃ t, step (inFlight 0x0F [1] [.rd 0x00C]) = .next t ∧ busy (inFlight 0x0F [1] [.rd 0x00C]).toHb = true ∧
      (¬ ∃ w, completesWord (inFlight 0x0F [1] [.rd 0x00C]) w) ∧ ¬ resetsNext (inFlight 0x0F [1] [.rd 0x00C]) := by
  refine ⟨_, rfl, rfl, ?_, ?_⟩
  · rintro ⟨w, -, h⟩; cases h
  · rintro ⟨-, m, ms, h, hr⟩; cases h; cases hr

theorem witness_PolledCommandCompletes :
    (inFlight 0x01 [3] [.poll]).latched = some 0x01 ∧ (inFlight 0x01 [3] [.poll]).latency = 3 :: [] ∧
    (inFlight 0x01 [3] [.poll]).resetPin = false ∧ (inFlight 0x01 [3] [.poll]).moves = .poll :: [] := by
  decide +kernel

theorem witness_EndedRunStaysAsItIs : runEnded State.reset := ⟨rfl, rfl⟩

theorem witness_EncfnWritesTheEncodedName :
    ∃ (s : State) (dir comp name ext : List Byte),
      s.pathLen.toNat ≤ 256 ∧ s.path.toList.take s.pathLen.toNat = dir ++ comp ∧ isDirectoryPart dir ∧
      noSeparator comp ∧ (∀ b ∈ comp, b.toNat < 0x80) ∧ name ≠ [] ∧ comp = name ++ 0x2E :: ext ∧ 0x2E ∉ ext :=
  ⟨onPath (text "d/a.b.c"), text "d/", text "a.b.c", text "a.b", text "c", by decide +kernel, by decide +kernel,
    .inr ⟨text "d", 0x2F, by decide, .inl rfl⟩, by unfold noSeparator; decide +kernel, by decide +kernel,
    by decide, by decide, by decide⟩

theorem witness_EncfnWritesTheEncodedName_256_bytes_no_dot :
    ∃ (s : State) (dir comp name ext : List Byte),
      s.pathLen.toNat ≤ 256 ∧ s.path.toList.take s.pathLen.toNat = dir ++ comp ∧ isDirectoryPart dir ∧
      noSeparator comp ∧ (∀ b ∈ comp, b.toNat < 0x80) ∧ name ≠ [] ∧ comp = name ∧ ext = [] ∧ 0x2E ∉ name :=
  ⟨{ State.reset with path := Vector.replicate 256 0x41, pathLen := 256 }, [], List.replicate 256 0x41,
    List.replicate 256 0x41, [], by decide,
    by
      show List.take 256 (Vector.replicate 256 (0x41 : Byte)).toList = _
      rw [Vector.toList_replicate]
      exact List.take_of_length_le (by rw [List.length_replicate]),
    .inl rfl,
    fun b hb => by rw [List.eq_of_mem_replicate hb]; decide,
    fun b hb => by rw [List.eq_of_mem_replicate hb]; decide, List.cons_ne_nil _ _, rfl, rfl,
    fun hb => by have := List.eq_of_mem_replicate hb; revert this; decide⟩

theorem witness_EncfnErrors_range : 256 < ({ State.reset with pathLen := 257 } : State).pathLen.toNat := by decide +kernel

theorem witness_EncfnErrors_not_ascii :
    ∃ (s : State) (dir comp : List Byte), s.pathLen.toNat ≤ 256 ∧
      s.path.toList.take s.pathLen.toNat = dir ++ comp ∧ isDirectoryPart dir ∧ noSeparator comp ∧
      ∃ b ∈ comp, 0x80 ≤ b.toNat :=
  ⟨onPath [0x80], [], [0x80], by decide +kernel, by decide +kernel, .inl rfl, by unfold noSeparator; decide,
    0x80, by decide, by decide⟩

theorem witness_EncfnErrors_empty :
    ∃ (s : State) (dir comp : List Byte), s.pathLen.toNat ≤ 256 ∧
      s.path.toList.take s.pathLen.toNat = dir ++ comp ∧ isDirectoryPart dir ∧ noSeparator comp ∧ comp = [] :=
  ⟨onPath (text "dir/"), text "dir/", [], by decide +kernel, by decide +kernel,
    .inr ⟨text "dir", 0x2F, by decide, .inl rfl⟩, by unfold noSeparator; decide, rfl⟩

theorem witness_EncfnErrors_leading_dot :
    ∃ (s : State) (dir comp ext : List Byte), s.pathLen.toNat ≤ 256 ∧
      s.path.toList.take s.pathLen.toNat = dir ++ comp ∧ isDirectoryPart dir ∧ noSeparator comp ∧
      comp = 0x2E :: ext ∧ 0x2E ∉ ext :=
  ⟨onPath (text ".COM"), [], text ".COM", text "COM", by decide +kernel, by decide +kernel, .inl rfl,
    by unfold noSeparator; decide, by decide, by decide⟩

theorem witness_CsumblkSumsTheBlock :
    (onBlock []).status.blkValid = true ∧ State.reset.status.blkValid = false := by decide +kernel

theorem witness_CsumrngSumsTheRange_last_byte :
    ∃ (s : State) (bytes : List Byte), s.rbase.toNat + s.rlen.toNat ≤ 8388480 ∧ bytes.length = s.rlen.toNat ∧
      ∀ k (h : k < bytes.length), Memory.lookup s.dmem (s.rbase.toNat + k) = some bytes[k] :=
  ⟨{ State.reset with dmem := [(8388479, 0x7F)], rbase := 8388479, rlen := 1 }, [0x7F], by decide +kernel,
    by decide +kernel, by decide +kernel⟩

theorem witness_CsumrngSumsTheRange_errors :
    8388480 < (onRange [] 8388479 2).rbase.toNat + (onRange [] 8388479 2).rlen.toNat ∧
    8388480 < (onRange [] 0xFFFFFFFF 1).rbase.toNat + (onRange [] 0xFFFFFFFF 1).rlen.toNat ∧
    (onRange [] 8388479 1).rbase.toNat + (onRange [] 8388479 1).rlen.toNat ≤ 8388480 ∧
    ∃ k, k < (onRange [] 8388479 1).rlen.toNat ∧
      Memory.lookup (onRange [] 8388479 1).dmem ((onRange [] 8388479 1).rbase.toNat + k) = none :=
  ⟨by decide +kernel, by decide +kernel, by decide +kernel, 0, by decide +kernel, rfl⟩

/-- The state `ready` meets the invariant with every flag of a session set. -/
theorem ready_inv : ready.Inv :=
  ⟨by decide +kernel, by decide +kernel, by unfold asciiNoLower; decide +kernel, by decide +kernel, by decide +kernel,
    by decide +kernel, by decide +kernel⟩

theorem witness_RangeChecksumAgreesWithBlockChecksum :
    ready.Inv ∧ ready.status.segValid = true ∧ 0 < ready.cnt.toNat ∧
    bytesWritten ready.dmem (128 * 0) (min 128 (ready.dataLen.toNat - 128 * 0)) :=
  ⟨ready_inv, by decide +kernel, by decide +kernel, by unfold bytesWritten; decide +kernel⟩

theorem witness_SegmentCountsTheBlocks :
    ({ State.reset with dataLen := 8388480 } : State).dataLen.toNat ≤ 8388480 ∧
    8388480 < ({ State.reset with dataLen := 8388481 } : State).dataLen.toNat := by decide +kernel

theorem witness_GetblkLoadsTheSegment :
    (onFile 900 896 [1, 2, 3, 4]).status.segValid = true ∧ 7 < (onFile 900 896 [1, 2, 3, 4]).cnt.toNat ∧ 7 < 65536 ∧
    bytesWritten (onFile 900 896 [1, 2, 3, 4]).dmem (128 * 7)
      (min 128 ((onFile 900 896 [1, 2, 3, 4]).dataLen.toNat - 128 * 7)) :=
  ⟨by decide +kernel, by decide +kernel, by decide, by unfold bytesWritten; decide +kernel⟩

theorem witness_GetblkLoadsTheSegment_last :
    (onFile 8388480 8388352 (List.replicate 128 1)).status.segValid = true ∧
    65534 < (onFile 8388480 8388352 (List.replicate 128 1)).cnt.toNat ∧
    bytesWritten (onFile 8388480 8388352 (List.replicate 128 1)).dmem (128 * 65534)
      (min 128 ((onFile 8388480 8388352 (List.replicate 128 1)).dataLen.toNat - 128 * 65534)) :=
  ⟨by decide +kernel, by decide +kernel, by unfold bytesWritten; decide +kernel⟩

theorem witness_GetblkErrors :
    State.reset.status.segValid = false ∧
    (onFile 900 0 []).status.segValid = true ∧ (onFile 900 0 []).cnt.toNat ≤ 8 := by decide +kernel

theorem witness_GetblkErrors_unwritten :
    (onFile 1 0 []).Inv ∧ (onFile 1 0 []).status.segValid = true ∧ 0 < (onFile 1 0 []).cnt.toNat ∧
    ∃ k, k < 128 ∧ 128 * 0 + k < (onFile 1 0 []).dataLen.toNat ∧
      Memory.lookup (onFile 1 0 []).dmem (128 * 0 + k) = none :=
  ⟨⟨by decide +kernel, by decide +kernel, by unfold asciiNoLower; decide +kernel, by decide +kernel, by decide +kernel,
    by decide +kernel, by decide +kernel⟩, by decide +kernel, by decide +kernel, 0, by decide, by decide +kernel, rfl⟩

theorem witness_ZeroLengthFileHasNoSegment :
    (onName (text "HEX     COM") 0).dataLen = 0 ∧ (onName (text "HEX     COM") 0).status.fnValid = true := by
  decide +kernel

theorem witness_GetblkIsRestartable :
    ∃ (s t s' t' : State), exec (.getblk 0) s = .next t ∧ t.status.err = .ok ∧ s'.dmem = s.dmem ∧
      s'.dataLen = s.dataLen ∧ exec (.getblk 0) s' = .next t' ∧ t'.status.err = .ok :=
  ⟨ready, _, { ready with csum := 1 }, _, rfl, rfl, rfl, rfl, rfl, rfl⟩

theorem witness_SegmentsRebuildTheFile :
    ([0xFF, 0x01] : List Byte).length ≤ 8388480 ∧
    ∀ k (h : k < ([0xFF, 0x01] : List Byte).length),
      Memory.lookup [(0, 0xFF), (1, 0x01)] k = some ([0xFF, 0x01] : List Byte)[k] := by decide

theorem witness_FrameIsHeaderThenBlocks :
    ready.Inv ∧ ready.status.hdrValid = true ∧ ready.status.segValid = true ∧
    bytesWritten ready.dmem 0 ready.dataLen.toNat :=
  ⟨ready_inv, by decide +kernel, by decide +kernel, by unfold bytesWritten; decide +kernel⟩

theorem witness_BuildhdrAssemblesTheHeader :
    (onName (text "ZORK2   COM") 65535).status.fnValid = true ∧
    (onName (text "ZORK2   COM") 65535).cnt.toNat ≤ 65535 := by decide +kernel

theorem witness_BuildhdrErrors :
    State.reset.status.fnValid = false ∧ (onName (text "ZORK2   COM") 65536).status.fnValid = true ∧
    65535 < (onName (text "ZORK2   COM") 65536).cnt.toNat := by decide +kernel

theorem witness_HeaderRoundTrip :
    (onName (text "HEX     COM") 0).status.fnValid = true ∧ (onName (text "HEX     COM") 0).cnt.toNat ≤ 65535 := by
  decide +kernel

theorem witness_SegmentSuccessRulesOutInvalidBlockCount :
    ready.Inv ∧ ready.status.segValid = true ∧ ready.status.fnValid = true :=
  ⟨ready_inv, by decide +kernel, by decide +kernel⟩

theorem witness_FailingCommandWritesOnlyStatus :
    ∃ t, exec .csumblk State.reset = .next t ∧ t.status.err ≠ .ok := ⟨_, rfl, by decide⟩

theorem witness_SuccessfulCommandKeepsErrSeen :
    (∃ t, exec .nop State.reset = .next t ∧ t.status.err = .ok) ∧
    ∃ t, exec .sreset State.reset = .next t ∧ t.status.err = .ok := ⟨⟨_, rfl, rfl⟩, _, rfl, rfl⟩

theorem witness_ChecksAreMadeInOrder :
    (∃ t, execWord 0x02 State.reset = .next t ∧ decode 0x02 = .instr .csumblk) ∧
    ∃ t, execWord 0x0E State.reset = .next t ∧ decode 0x0E = .illegal .reservedOpcode :=
  ⟨⟨_, rfl, by decide⟩, _, rfl, by decide⟩

theorem witness_ErrChangesOnlyAtCompletionOrReset :
    ∃ t, step (inFlight 0x02 [] []) = .next t ∧ t.status.err ≠ (inFlight 0x02 [] []).status.err :=
  ⟨_, rfl, by decide⟩

theorem witness_ErrSeenIsSticky_set :
    ∃ t, step (inFlight 0x02 [] []) = .next t ∧ completesWord (inFlight 0x02 [] []) 0x02 ∧ t.status.err ≠ .ok ∧
      (inFlight 0x02 [] []).status.errSeen = false ∧ t.status.errSeen = true :=
  ⟨_, rfl, ⟨rfl, rfl⟩, by decide, rfl, rfl⟩

theorem witness_ErrSeenIsSticky_cleared :
    ∃ s t : State, step s = .next t ∧ s.status.errSeen = true ∧ t.status.errSeen = false ∧ completes s .sreset :=
  ⟨{ inFlight 0x0F [] [] with status := { Status.reset with errSeen := true } }, _, rfl, rfl, rfl,
    0x0F, ⟨rfl, rfl⟩, by decide⟩

theorem witness_EachCommandWritesOnlyItsResults :
    ∃ t, exec (.getblk 0) ready = .next t ∧ Instr.getblk 0 ≠ .sreset ∧ Instr.getblk 0 ≠ .encfn :=
  ⟨_, rfl, by decide, by decide⟩

theorem witness_NoCommandWritesDmem : ∃ t, exec .sreset ready = .next t := ⟨_, rfl⟩

theorem witness_OutcomeDependsOnHbAlone :
    ∃ s s' t : State, s'.toHb = s.toHb ∧ exec .encfn s = .next t ∧
      exec .csumrng { s with rlen := 1 } = .fault .unwrittenDmemByte :=
  ⟨State.reset, { State.reset with draws := 5 }, _, rfl, rfl, rfl⟩

theorem witness_ValidFlagsAreSetAndClearedByTheirEvents_set :
    (∃ t, step (inFlight 0x04 [] []) = .next t ∧ t.status.err = .ok ∧ completes (inFlight 0x04 [] []) .segment ∧
      (inFlight 0x04 [] []).status.segValid = false ∧ t.status.segValid = true) ∧
    ∃ t, step { onBlock [] with latched := some 0x02 } = .next t ∧
      completes { onBlock [] with latched := some 0x02 } .csumblk ∧ t.status.csValid = true :=
  ⟨⟨_, rfl, rfl, ⟨0x04, ⟨rfl, rfl⟩, by decide⟩, rfl, rfl⟩, _, rfl, ⟨0x02, ⟨rfl, rfl⟩, by decide⟩, rfl⟩

theorem witness_ValidFlagsAreSetAndClearedByTheirEvents_cleared :
    (∃ t, step { ready with moves := [.wr 0x00C 1] } = .next t ∧
      writesNext { ready with moves := [.wr 0x00C 1] } 0x00C 1 ∧
      ready.status.segValid = true ∧ t.status.segValid = false) ∧
    ∃ t, step { ready with moves := [.resetAssert] } = .next t ∧
      resetsNext { ready with moves := [.resetAssert] } ∧
      ready.status.fnValid = true ∧ t.status.fnValid = false ∧ ready.status.hdrValid = true ∧
      t.status.hdrValid = false :=
  ⟨⟨_, rfl, ⟨rfl, rfl, [], rfl⟩, rfl, rfl⟩,
    _, rfl, ⟨.inl rfl, .resetAssert, [], rfl, rfl⟩, rfl, rfl, rfl, rfl⟩

theorem witness_LengthOrCountWriteClearsSegValid :
    ready.resetPin = false ∧ ready.latched = none ∧ State.reset.status.segValid = false ∧
    ∃ t, step (inFlight 0x04 [] []) = .next t ∧ (inFlight 0x04 [] []).status.segValid = false ∧
      t.status.segValid = true := ⟨rfl, rfl, rfl, _, rfl, rfl, rfl⟩

theorem witness_DmemChangesOnlyByHostWriteOrPowerOn :
    (∃ t, step (facing [.wrb 8388479 0x55]) = .next t ∧ t.dmem ≠ (facing [.wrb 8388479 0x55]).dmem) ∧
    ∃ t, step { ready with moves := [.powerOn] } = .next t ∧ t.dmem ≠ ready.dmem :=
  ⟨⟨_, rfl, by decide +kernel⟩, _, rfl, by decide +kernel⟩

theorem witness_WindowsPackLittleEndian : (63 : Nat) < 64 ∧ (255 : Nat) < 256 ∧ 255 / 4 ≠ 0 := by decide

theorem witness_WrittenRegistersReadBack :
    State.reset.resetPin = false ∧ State.reset.latched = none ∧
    (0x100 ≤ (0x1FC : BitVec 12).toNat ∧ (0x1FC : BitVec 12).toNat ≤ 0x1FF ∧ (0x1FC : BitVec 12).toNat % 4 = 0) := by
  decide +kernel

theorem witness_ReadOnlyAndUnmappedWritesAreIgnored :
    State.reset.resetPin = false ∧ State.reset.latched = none ∧
    ∀ n ∈ ([0x024, 0x0FC, 0x20C, 0x220, 0x27C, 0x300, 0xFFC] : List Nat),
      (BitVec.ofNat 12 n).toNat = n ∧ n % 4 = 0 ∧
        ((0x024 ≤ n ∧ n ≤ 0x0FF) ∨ (0x20C ≤ n ∧ n ≤ 0x20F) ∨ (0x220 ≤ n ∧ n ≤ 0x27F) ∨ 0x300 ≤ n) := by decide +kernel

theorem witness_HostReadsHaveNoSideEffect :
    (∃ t, hostRead 0x004 State.reset = .next t) ∧ ∃ t, hostReadByte 0 State.reset = .next t :=
  ⟨⟨_, rfl⟩, _, rfl⟩

theorem witness_HostByteWriteSetsOneByte :
    State.reset.resetPin = false ∧ State.reset.latched = none ∧ (8388479 : BitVec 23).toNat < 8388480 ∧
    8388480 ≤ (0x7FFF80 : BitVec 23).toNat ∧ Memory.wf State.reset.dmem := by decide +kernel

theorem witness_HostByteReadReturnsTheByte :
    ready.resetPin = false ∧ (2 : BitVec 23).toNat < 8388480 ∧
    Memory.lookup ready.dmem (2 : BitVec 23).toNat = some 0x7F ∧ 8388480 ≤ (0x7FFF80 : BitVec 23).toNat := by
  decide +kernel

theorem witness_HostByteReadReturnsTheByte_unwritten :
    ready.resetPin = false ∧ (8388479 : BitVec 23).toNat < 8388480 ∧
    Memory.lookup ready.dmem (8388479 : BitVec 23).toNat = none := by decide +kernel

theorem witness_HardwareResetsGiveResetValues :
    (facing [.powerOn]).latched = none ∧ (facing [.powerOn]).moves = .powerOn :: [] ∧
    (facing [.resetAssert]).moves = .resetAssert :: [] ∧
    (facing [.resetRelease]).moves = .resetRelease :: [] := by decide +kernel

theorem witness_ResetDuringACommandAbandonsIt :
    (inFlight 0x01 [1] [.resetAssert]).latched = some 0x01 ∧
    (inFlight 0x01 [1] [.resetAssert]).latency.headD 0 ≠ 0 ∧
    (inFlight 0x01 [1] [.resetAssert]).moves = .resetAssert :: [] ∧
    (inFlight 0x01 [1] [.powerOn]).latency.headD 0 ≠ 0 ∧
    (inFlight 0x01 [1] [.powerOn]).moves = .powerOn :: [] ∧
    ({ State.reset with resetPin := true } : State).resetPin = true := by decide +kernel

theorem witness_HostDutyViolationsAreRefused :
    (inFlight 0x01 [1] []).resetPin = false ∧ busy (inFlight 0x01 [1] []).toHb = true ∧
    (0x003 : BitVec 12).toNat % 4 ≠ 0 ∧ (0x004 : BitVec 12).toNat % 4 = 0 ∧ (0x004 : BitVec 12) ≠ 0x000 := by
  decide +kernel

theorem witness_StepKeepsTheInvariant :
    ({ ready with moves := [.wrb 3 0x10] } : State).Inv ∧
    ∃ t, step { ready with moves := [.wrb 3 0x10] } = .next t ∧ t.dmem ≠ ready.dmem :=
  ⟨⟨ready_inv.dmemWf, ready_inv.segCount, ready_inv.fnameAscii, ready_inv.headerMarker, ready_inv.blkIdxBound,
    ready_inv.errSeenSticky, ready_inv.heldInReset⟩, _, rfl, by decide +kernel⟩

theorem witness_HostReadsReturnTheRegisterMap :
    ready.resetPin = false ∧ (0x1FC : BitVec 12).toNat = 0x100 + 4 * 63 ∧ (0x208 : BitVec 12).toNat = 0x200 + 4 * 2 ∧
    (0x21C : BitVec 12).toNat = 0x210 + 4 * 3 ∧ (0x2FC : BitVec 12).toNat = 0x280 + 4 * 31 := by decide +kernel

end Sys2Proof.Tests
end

/-!
What one step does to STATUS, said once (`statusStep_of_step`), and the two statements about its sticky bits: ERRSEEN
(10_state.md R27) and the valid flags (R37).
-/

namespace Sys2Proof.Machine

/-! ### Which events exclude each other -/

/-- A command in flight has one word, and a word has one decoding. -/
theorem completes_iff_decode {s : State} {w : Word} (hw : completesWord s w) (i : Instr) :
    completes s i ↔ decode w = .instr i := by
  constructor
  · rintro ⟨v, ⟨hv, -⟩, hi⟩
    obtain rfl : w = v := Option.some.inj (hw.1.symm.trans hv)
    exact hi
  · exact fun hi => ⟨w, hw, hi⟩

theorem not_completes_of_not_completesWord {s : State} (h : ∀ w, ¬ completesWord s w) (i : Instr) :
    ¬ completes s i :=
  fun ⟨w, hw, _⟩ => h w hw

theorem not_completesWord_of_idle_or_waiting {s : State} (h : s.latched = none ∨ ¬ engineDue s) (w : Word) :
    ¬ completesWord s w := by
  rintro ⟨hl, hd⟩
  rcases h with hn | hn
  · simp [hl] at hn
  · exact hn hd

theorem not_resetsNext_of_completesWord {s : State} {w : Word} (hw : completesWord s w) : ¬ resetsNext s :=
  fun ⟨h, _⟩ => not_completesWord_of_idle_or_waiting h w hw

/-- The next step is a host write to DATA_LEN or CNT (10_state.md R39). -/
def writesLengthNext (s : State) : Prop := ∃ v, writesNext s 0x008 v ∨ writesNext s 0x00C v

/-- A host write to a length register is made while no command is in flight, by a move that is no reset. -/
theorem writesLengthNext_exclusive {s : State} (h : writesLengthNext s) :
    (∀ w, ¬ completesWord s w) ∧ ¬ resetsNext s := by
  have key : ∀ off v, writesNext s off v → (∀ w, ¬ completesWord s w) ∧ ¬ resetsNext s := by
    rintro off v ⟨hl, -, ms, hm⟩
    refine ⟨not_completesWord_of_idle_or_waiting (.inl hl), ?_⟩
    rintro ⟨-, m, ms', hm', hr⟩
    cases hm.symm.trans hm'
    exact Bool.false_ne_true hr
  obtain ⟨v, h | h⟩ := h <;> exact key _ v h

theorem not_writesLengthNext_of_completesWord {s : State} {w : Word} (hw : completesWord s w) :
    ¬ writesLengthNext s :=
  fun hl => (writesLengthNext_exclusive hl).1 w hw

/-! ### What a completion leaves of STATUS -/

/-- STATUS after a success (10_state.md R37, 60_exceptions.md R112): ERR is 0 and the command's own valid flag is 1;
SRESET leaves the reset value (44_control.md R109). -/
def statusOfSuccess : Instr → Status → Status
  | .nop, st => { st with err := .ok }
  | .encfn, st => { st with err := .ok, fnValid := true }
  | .csumblk, st | .csumrng, st => { st with err := .ok, csValid := true }
  | .segment, st => { st with err := .ok, segValid := true }
  | .getblk _, st => { st with err := .ok, blkValid := true }
  | .buildhdr, st => { st with err := .ok, hdrValid := true }
  | .sreset, _ => Status.reset

/-- STATUS after an error (60_exceptions.md R113): ERR is its code and ERRSEEN is 1. -/
def statusOfError (e : ErrCode) (st : Status) : Status := { st with err := e, errSeen := true }

theorem finishOk_status_of_committed {i : Instr} {s u : State} (h : Committed i s u) :
    (finishOk u).status = statusOfSuccess i s.status := by
  cases i <;> simp only [Committed] at h
  case nop => subst h; rfl
  case sreset => subst h; rfl
  case encfn => obtain ⟨-, r, -, rfl⟩ := h; rfl
  case csumblk => obtain ⟨-, rfl⟩ := h; rfl
  case csumrng => obtain ⟨-, bs, -, rfl⟩ := h; rfl
  case segment => obtain ⟨-, rfl⟩ := h; rfl
  case getblk => obtain ⟨-, -, bs, -, rfl⟩ := h; rfl
  case buildhdr => obtain ⟨-, -, rfl⟩ := h; rfl

/-- SRESET makes no check, so it raises nothing (44_control.md R109). -/
theorem exec_sreset_not_finishErr {s : State} {e : ErrCode} (he : e ≠ .ok) :
    exec .sreset s ≠ .next (finishErr e s) := by
  intro h
  rw [exec_of_committed (i := .sreset) rfl] at h
  have herr := congrArg (fun t : State => t.status.err) (Host.Outcome.next.inj h)
  exact he herr.symm

/-! ### What a step leaves of STATUS -/

/-- The five ways a step from `s` can leave STATUS, told apart by the event that is next. -/
inductive StatusStep (s : State) : Status → Prop
  /-- A completion with an error; SRESET's is none. -/
  | failed {w : Word} {e : ErrCode} (hw : completesWord s w) (hi : decode w ≠ .instr .sreset) (he : e ≠ .ok) :
      StatusStep s (statusOfError e s.status)
  /-- A successful completion. -/
  | succeeded {w : Word} {i : Instr} (hw : completesWord s w) (hi : decode w = .instr i) :
      StatusStep s (statusOfSuccess i s.status)
  /-- Power-on or the reset input. -/
  | reset (hr : resetsNext s) : StatusStep s Status.reset
  /-- A host write to DATA_LEN or CNT. -/
  | lengthWritten (hl : writesLengthNext s) : StatusStep s { s.status with segValid := false }
  /-- Anything else. -/
  | kept (hw : ∀ w, ¬ completesWord s w) (hr : ¬ resetsNext s) (hl : ¬ writesLengthNext s) :
      StatusStep s s.status

theorem statusStep_of_execWord {w : Word} {s u : State} (hw : completesWord s w) (h : execWord w s = .next u) :
    StatusStep s u.status := by
  rcases execWord_next h with ⟨i, hi, hx⟩ | ⟨r, hr, rfl⟩
  · rcases exec_next_cases hx with ⟨e, he, rfl⟩ | ⟨v, hv, rfl⟩
    · refine .failed hw (fun hs => ?_) he
      obtain rfl : i = .sreset := Decoded.instr.inj (hi.symm.trans hs)
      exact exec_sreset_not_finishErr he hx
    · rw [finishOk_status_of_committed hv]
      exact .succeeded hw hi
  · exact .failed hw (by simp [hr]) (by decide)

theorem idle_or_waiting_of_worldTurn {s u : State} (h : WorldTurn s u) : s.latched = none ∨ ¬ engineDue s := by
  rcases h with ⟨hl, -⟩ | ⟨w, k, rest, -, hk, -⟩
  · exact .inl hl
  · exact .inr (by simp [engineDue, hk])

/-- On the outside world's turn, a next move that neither resets HB nor writes DATA_LEN or CNT is none of the events
that change STATUS. -/
theorem statusStep_kept {s u : State} (h : WorldTurn s u)
    (hm : ∀ m ∈ s.moves.head?, m.isReset = false ∧ ∀ v, m ≠ .wr 0x008 v ∧ m ≠ .wr 0x00C v) :
    StatusStep s s.status := by
  refine .kept (not_completesWord_of_idle_or_waiting (idle_or_waiting_of_worldTurn h)) ?_ ?_
  · rintro ⟨-, m, ms, hms, hr⟩
    simp [(hm m (by simp [hms])).1] at hr
  · rintro ⟨v, ⟨-, -, ms, hms⟩ | ⟨-, -, ms, hms⟩⟩
    · exact ((hm _ (by simp [hms])).2 v).1 rfl
    · exact ((hm _ (by simp [hms])).2 v).2 rfl

theorem writeReg_status_of_length {loc : RegLoc} (h : loc = .dataLen ∨ loc = .cnt) (v : Word) (s : State) :
    (writeReg loc v s).status = { s.status with segValid := false } := by
  rcases h with rfl | rfl <;> rfl

theorem writeReg_status_of_ne {loc : RegLoc} (hd : loc ≠ .dataLen) (hc : loc ≠ .cnt) (v : Word) (s : State) :
    (writeReg loc v s).status = s.status := by
  cases loc <;> simp_all [writeReg]

theorem statusStep_of_performed {s u t : State} {m : Move} {ms : List Move} (h : WorldTurn s u)
    (hm : u.moves = m :: ms) (hp : Performed m { u with moves := ms } t) : StatusStep s t.status := by
  obtain ⟨hhb, hmoves, hpin⟩ := worldTurn_toHb h
  rw [hmoves] at hm
  have hst : u.status = s.status := congrArg Hb.status hhb
  have kept (hne : m.isReset = false ∧ ∀ v, m ≠ .wr 0x008 v ∧ m ≠ .wr 0x00C v) : StatusStep s u.status :=
    hst ▸ statusStep_kept h (by simpa [hm] using hne)
  have reset (hr : m.isReset = true) : StatusStep s Status.reset :=
    .reset ⟨idle_or_waiting_of_worldTurn h, m, ms, hm, hr⟩
  cases m with
  | wr off v =>
    obtain ⟨hup, -, hul, rfl⟩ := hp
    have hw : writesNext s off v := ⟨by simpa [hhb] using hul, hpin ▸ hup, ms, hm⟩
    rw [nextDraw_status]
    by_cases hlen : off = 0x008 ∨ off = 0x00C
    · rw [writeReg_status_of_length (by simpa [regLoc_eq_dataLen_iff, regLoc_eq_cnt_iff] using hlen), hst]
      rcases hlen with rfl | rfl
      · exact .lengthWritten ⟨v, .inl hw⟩
      · exact .lengthWritten ⟨v, .inr hw⟩
    · obtain ⟨h8, hC⟩ := not_or.1 hlen
      rw [writeReg_status_of_ne (mt (regLoc_eq_dataLen_iff off).1 h8) (mt (regLoc_eq_cnt_iff off).1 hC)]
      exact kept ⟨rfl, fun v' => ⟨fun e => h8 (Move.wr.inj e).1, fun e => hC (Move.wr.inj e).1⟩⟩
  | rd off => obtain ⟨-, -, rfl⟩ := hp; exact kept (by simp [Move.isReset])
  | wrb a b =>
    obtain ⟨-, -, ⟨-, rfl⟩ | ⟨-, rfl⟩⟩ := hp <;> exact kept (by simp [Move.isReset])
  | rdb a => obtain ⟨-, rfl⟩ := hp; exact kept (by simp [Move.isReset])
  | poll => obtain ⟨-, rfl⟩ := hp; exact kept (by simp [Move.isReset])
  | narrow off => exact hp.elim
  | powerOn => obtain rfl := hp; exact reset rfl
  | resetAssert =>
    obtain rfl := hp
    rw [resetAssert_toHb]
    exact reset rfl
  | resetRelease => obtain rfl := hp; exact kept (by simp [Move.isReset])

/-- What one step does to STATUS, by its event. -/
theorem statusStep_of_step {s t : State} (h : step s = .next t) : StatusStep s t.status := by
  rcases step_next_cases h with ⟨w, u, hw, hu, rfl⟩ | ⟨u, hturn, ⟨hm, rfl⟩ | ⟨m, ms, hm, hp⟩⟩
  · rw [afterCompletion_status]
    exact statusStep_of_execWord hw hu
  · obtain ⟨hhb, hmoves, -⟩ := worldTurn_toHb hturn
    rw [hhb]
    exact statusStep_kept hturn (by simp [← hmoves, hm])
  · exact statusStep_of_performed hturn hm hp

/-! ### The statements -/

/-- Settles O37, by the event of the step: an error alone raises ERRSEEN, SRESET and the hardware resets alone
clear it. -/
theorem errSeenIsSticky : Obligations.ErrSeenIsSticky := by
  intro s t h
  have hs := statusStep_of_step h
  generalize t.status = st at hs ⊢
  cases hs with
  | failed hw hi he =>
    have hr := not_resetsNext_of_completesWord hw
    simp [statusOfError, completes_iff_decode hw, hi, he, hr, Exists.intro _ hw]
  | @succeeded w i hw hi =>
    have hr := not_resetsNext_of_completesWord hw
    cases i <;> simp +contextual [statusOfSuccess, completes_iff_decode hw, hi, hr]
  | reset hr => simp [hr]
  | lengthWritten hl =>
    obtain ⟨hw, hr⟩ := writesLengthNext_exclusive hl
    simp +contextual [hw, hr, not_completes_of_not_completesWord hw]
  | kept hw hr hl => simp +contextual [hw, hr, not_completes_of_not_completesWord hw]

/-- Settles O41, by the event of the step: a success sets its own command's flag alone, and a flag falls by a reset
or, SEG_VALID, by a length write. -/
theorem validFlagsAreSetAndClearedByTheirEvents : Obligations.ValidFlagsAreSetAndClearedByTheirEvents := by
  intro s t h
  have hs := statusStep_of_step h
  rw [← writesLengthNext]
  generalize t.status = st at hs ⊢
  cases hs with
  | failed hw hi he =>
    have hr := not_resetsNext_of_completesWord hw
    have hl := not_writesLengthNext_of_completesWord hw
    simp +contextual [statusOfError, completes_iff_decode hw, hi, he, hr, hl]
  | @succeeded w i hw hi =>
    have hr := not_resetsNext_of_completesWord hw
    have hl := not_writesLengthNext_of_completesWord hw
    cases i <;> simp +contextual [statusOfSuccess, completes_iff_decode hw, hi, hr, hl]
  | reset hr =>
    have hw := not_completesWord_of_idle_or_waiting hr.1
    simp [hr, not_completes_of_not_completesWord hw]
  | lengthWritten hl =>
    obtain ⟨hw, hr⟩ := writesLengthNext_exclusive hl
    simp +contextual [hl, hr, not_completes_of_not_completesWord hw]
  | kept hw hr hl => simp +contextual [hr, hl, not_completes_of_not_completesWord hw]

end Sys2Proof.Machine

/-!
The fields of a command word as numbers, the rows of the opcode map told by them (30_encoding.md R63, R67), and the
statement about the words that match no row (R68, R69).
-/

namespace Sys2Proof

/-! ### The three fields make up the word -/

@[simp] theorem rsvField_toNat (w : Word) : (rsvField w).toNat = w.toNat / 2 ^ 24 := by
  have := w.isLt
  simp only [rsvField, BitVec.extractLsb'_toNat, Nat.shiftRight_eq_div_pow]
  omega

@[simp] theorem immField_toNat (w : Word) : (immField w).toNat = w.toNat / 256 % 65536 := by
  simp only [immField, BitVec.extractLsb'_toNat, Nat.shiftRight_eq_div_pow, Nat.reducePow]

@[simp] theorem opField_toNat (w : Word) : (opField w).toNat = w.toNat % 256 := by
  simp only [opField, BitVec.extractLsb'_toNat, Nat.shiftRight_zero, Nat.reducePow]

theorem word_eq_iff_fields (v w : Word) :
    v = w ↔ rsvField v = rsvField w ∧ immField v = immField w ∧ opField v = opField w := by
  simp only [← BitVec.toNat_inj, rsvField_toNat, immField_toNat, opField_toNat]
  omega

/-- A mask that keeps RSV and OP and leaves IMM out, as GETBLK's row has it, compares those two fields. -/
theorem and_eq_iff_rsvField_opField {w m : Word} (hm : immField m = 0) :
    w &&& 0xFF0000FF = m ↔ rsvField w = rsvField m ∧ opField w = opField m := by
  have hrsv : rsvField (w &&& 0xFF0000FF) = rsvField w :=
    BitVec.extractLsb'_and.trans BitVec.and_allOnes
  have himm : immField (w &&& 0xFF0000FF) = 0 := BitVec.extractLsb'_and.trans BitVec.and_zero
  have hop : opField (w &&& 0xFF0000FF) = opField w := BitVec.extractLsb'_and.trans BitVec.and_allOnes
  rw [word_eq_iff_fields, hrsv, himm, hop, hm]
  simp

/-! ### The rows of the opcode map -/

/-- A word matches a row when RSV is 0, OP is the row's, and IMM is 0 or the row is GETBLK's. -/
theorem and_rowMask_eq_rowMatch_iff (w : Word) (i : Instr) :
    w &&& rowMask i = rowMatch i ↔
      w.toNat / 2 ^ 24 = 0 ∧ w.toNat % 256 = (rowMatch i).toNat ∧
        (w.toNat / 256 % 65536 = 0 ∨ w.toNat % 256 = 0x05) := by
  cases i with
  | getblk n =>
    simp only [rowMask, rowMatch]
    rw [and_eq_iff_rsvField_opField (by decide)]
    simp +contextual [← BitVec.toNat_inj]
  | _ =>
    simp only [rowMask, rowMatch, show (0xFFFFFFFF : Word) = BitVec.allOnes 32 from rfl, BitVec.and_allOnes,
      ← BitVec.toNat_inj, BitVec.reduceToNat]
    omega

theorem exists_rowMatch_toNat_eq_iff (n : Nat) : (∃ i, (rowMatch i).toNat = n) ↔ n ≤ 0x06 ∨ n = 0x0F := by
  constructor
  · rintro ⟨i, rfl⟩
    cases i <;> simp [rowMatch]
  · intro h
    obtain rfl | rfl | rfl | rfl | rfl | rfl | rfl | rfl :
      n = 0 ∨ n = 1 ∨ n = 2 ∨ n = 3 ∨ n = 4 ∨ n = 5 ∨ n = 6 ∨ n = 15 := by omega
    exacts [⟨.nop, rfl⟩, ⟨.encfn, rfl⟩, ⟨.csumblk, rfl⟩, ⟨.csumrng, rfl⟩, ⟨.segment, rfl⟩, ⟨.getblk 0, rfl⟩,
      ⟨.buildhdr, rfl⟩, ⟨.sreset, rfl⟩]

theorem exists_row_iff (w : Word) :
    (∃ i, w &&& rowMask i = rowMatch i) ↔
      w.toNat / 2 ^ 24 = 0 ∧ (w.toNat % 256 ≤ 0x06 ∨ w.toNat % 256 = 0x0F) ∧
        (w.toNat / 256 % 65536 = 0 ∨ w.toNat % 256 = 0x05) := by
  simp only [and_rowMask_eq_rowMatch_iff, exists_and_left, exists_and_right, eq_comm (a := w.toNat % 256),
    exists_rowMatch_toNat_eq_iff]

/-! ### The decoder and the rows -/

theorem toNat_eq_of_decodeOp_eq_instr {op : BitVec 8} {i : Instr} (h : decodeOp op = .instr i) :
    op.toNat = (rowMatch i).toNat := by
  unfold decodeOp at h
  split at h <;> cases h <;> assumption

theorem row_of_decode_eq_instr {w : Word} {i : Instr} (h : decode w = .instr i) :
    w &&& rowMask i = rowMatch i := by
  rw [and_rowMask_eq_rowMatch_iff, ← rsvField_toNat, ← immField_toNat, ← opField_toNat]
  unfold decode at h
  split at h
  · cases h
  next hrsv =>
    rw [not_not.1 hrsv]
    split at h
    next hop =>
      cases h
      simp [hop, rowMatch]
    next =>
      split at h
      · cases h
      next himm => simp [not_not.1 himm, toNat_eq_of_decodeOp_eq_instr h]

theorem decode_illegal_of_no_row {w : Word} (h : ∀ i : Instr, w &&& rowMask i ≠ rowMatch i) :
    ∃ r, decode w = .illegal r := by
  cases hd : decode w with
  | instr i => exact absurd (row_of_decode_eq_instr hd) (h i)
  | illegal r => exact ⟨r, rfl⟩

/-- Settles O4: the reserved forms are the complement of `exists_row_iff`, and the decoder answers such a word with a
reason, which completes with IllegalCommand. -/
theorem reservedWordsAreIllegalCommands : Obligations.ReservedWordsAreIllegalCommands := by
  refine fun w s => ⟨?_, fun h => ?_⟩
  · rw [← not_exists, exists_row_iff]
    omega
  · obtain ⟨r, hr⟩ := decode_illegal_of_no_row h
    exact Machine.execWord_illegal hr s

end Sys2Proof

/-!
The checksum's laws (41_checksum.md R85, R86), the segment's bytes told as its data bytes and its padding
(42_segmenter.md R94), and the agreement of CSUMRNG with GETBLK and CSUMBLK (R89).
-/

namespace Sys2Proof.Machine

/-! ### The checksum -/

theorem checksum_toNat (l : List Byte) : (checksum l).toNat = (l.map BitVec.toNat).sum % 256 := by
  induction l with
  | nil => rfl
  | cons b l ih =>
    rw [checksum_cons, BitVec.toNat_add, ih, List.map_cons, List.sum_cons, Nat.add_mod_mod]

theorem checksum_append (s t : List Byte) : checksum (s ++ t) = checksum s + checksum t := by
  rw [← checksum_foldl t (checksum s)]
  exact List.foldl_append

theorem checksum_perm {s t : List Byte} (h : s.Perm t) : checksum s = checksum t := by
  apply BitVec.eq_of_toNat_eq
  rw [checksum_toNat, checksum_toNat, (h.map BitVec.toNat).sum_eq]

theorem checksum_replicate_toNat (b : Byte) (n : Nat) :
    (checksum (List.replicate n b)).toNat = b.toNat * n % 256 := by
  rw [checksum_toNat, List.map_replicate, List.sum_replicate_nat, Nat.mul_comm]

theorem checksum_append_zeros (s : List Byte) (m : Nat) :
    checksum (s ++ List.replicate m 0x00) = checksum s := by
  have hz : checksum (List.replicate m 0x00) = 0 := by
    apply BitVec.eq_of_toNat_eq
    simp [checksum_replicate_toNat]
  rw [checksum_append, hz]
  exact BitVec.add_zero _

/-- Settles O17: each addition reduces modulo 256, by induction on the sequence. -/
theorem checksumIsTheSumModulo256 : Obligations.ChecksumIsTheSumModulo256 := checksum_toNat

/-- Settles O18: the laws follow from the exact sum modulo 256 and from the sum of a concatenation. -/
theorem checksumLaws : Obligations.ChecksumLaws := by
  refine ⟨checksum_nil, fun s t => ?_, fun s t => checksum_perm, checksum_append_zeros, checksum_replicate_toNat,
    fun s t => congrArg checksum⟩
  rw [checksum_append, BitVec.toNat_add]

/-! ### Gathering in two parts -/

theorem gather_append {f : Nat → Except Fault Byte} {a n p : Nat} {bs cs : List Byte}
    (hb : gather f a n = .ok bs) (hc : gather f (a + n) p = .ok cs) : gather f a (n + p) = .ok (bs ++ cs) := by
  rw [gather_ok_iff] at *
  obtain ⟨rfl, hb⟩ := hb
  obtain ⟨rfl, hc⟩ := hc
  refine ⟨List.length_append, fun k hk => ?_⟩
  by_cases hkb : k < bs.length
  · rw [hb k hkb, List.getElem_append_left hkb]
  · have hkc : k - bs.length < cs.length := by rw [List.length_append] at hk; omega
    rw [List.getElem_append_right (Nat.not_lt.1 hkb), ← hc _ hkc]
    congr 1
    omega

theorem gather_const {f : Nat → Except Fault Byte} {a n : Nat} {b : Byte} (h : ∀ k, k < n → f (a + k) = .ok b) :
    gather f a n = .ok (List.replicate n b) := by
  rw [gather_ok_iff]
  refine ⟨List.length_replicate, fun k hk => ?_⟩
  rw [List.getElem_replicate, h k (by simpa using hk)]

/-! ### A segment is its data bytes, then its padding -/

theorem gather_memRead_of_written {m : Memory} {a n : Nat} (h : bytesWritten m a n) :
    ∃ bs, gather (memRead m) a n = .ok bs := by
  refine gather_total fun k hk => ?_
  obtain ⟨ha, hw⟩ := h k hk
  obtain ⟨b, hb⟩ := Option.isSome_iff_exists.1 hw
  exact ⟨b, (memRead_ok_iff m _ b).2 ⟨ha, hb⟩⟩

/-- A segment with `n` bytes below the file's length `len`: those bytes of DMEM, then zeros up to the block's size. -/
theorem segmentBytes_of_data {m : Memory} {len i n : Nat} {bs : List Byte} (hn : n = min 128 (len - 128 * i))
    (h : gather (memRead m) (128 * i) n = .ok bs) :
    segmentBytes m len i = .ok (bs ++ List.replicate (128 - n) 0x00) := by
  have hdata : gather (segmentByte m len) (128 * i) n = .ok bs := by
    rw [← h]
    exact gather_congr fun k hk => segmentByte_data (by omega)
  have hpad : gather (segmentByte m len) (128 * i + n) (128 - n) = .ok (List.replicate (128 - n) 0x00) :=
    gather_const fun k hk => segmentByte_padding (by omega)
  have hsize : n + (128 - n) = Config.blockSize := Nat.add_sub_cancel' (by omega)
  rw [segmentBytes, ← hsize]
  exact gather_append hdata hpad

/-! ### The two ways to a segment's checksum -/

theorem exec_getblk_then_csumblk {s : State} {i : Nat} {bs : List Byte} (hv : s.status.segValid = true)
    (hi : i < s.cnt.toNat) (hb : segmentBytes s.dmem s.dataLen.toNat i = .ok bs) :
    ∃ t u, exec (.getblk i) s = .next t ∧ exec .csumblk t = .next u ∧
      t.status.err = .ok ∧ u.status.err = .ok ∧ u.csum = checksum bs := by
  have hlen : bs.length = 128 := gather_length hb
  have hget : Committed (.getblk i) s (setBlock (arrayOf 128 bs) (BitVec.ofNat 16 i) s) := ⟨hv, hi, bs, hb, rfl⟩
  refine ⟨_, _, exec_of_committed hget, exec_of_committed (i := .csumblk) ⟨by simp, rfl⟩, by simp, by simp, ?_⟩
  simp [arrayOf_toList hlen]

theorem exec_csumrng_of_gather {s : State} {a n : Nat} {bs : List Byte} (h : a + n ≤ 8388480)
    (hb : gather (memRead s.dmem) a n = .ok bs) :
    ∃ v, exec .csumrng { s with rbase := BitVec.ofNat 32 a, rlen := BitVec.ofNat 32 n } = .next v ∧
      v.status.err = .ok ∧ v.csum = checksum bs := by
  have ha : (BitVec.ofNat 32 a).toNat = a := Nat.mod_eq_of_lt (by omega)
  have hn : (BitVec.ofNat 32 n).toNat = n := Nat.mod_eq_of_lt (by omega)
  refine ⟨_, exec_of_committed (i := .csumrng) ⟨by rwa [ha, hn], bs, by rwa [ha, hn], rfl⟩, by simp, by simp⟩

/-- With SEG_VALID = 1 the file fits DMEM, so a segment's data bytes end inside it. -/
theorem segment_data_le_dmemSize {s : State} {i : Nat} (hs : s.Inv) (hv : s.status.segValid = true)
    (hi : i < s.cnt.toNat) : 128 * i + min 128 (s.dataLen.toNat - 128 * i) ≤ 8388480 := by
  obtain ⟨hcnt, hmax⟩ := hs.segCount hv
  omega

/-- Settles O21: both checksums are that of the segment's data bytes, for the padding GETBLK adds is zero. -/
theorem rangeChecksumAgreesWithBlockChecksum : Obligations.RangeChecksumAgreesWithBlockChecksum := by
  intro s i hs hv hi hw
  obtain ⟨bs, hb⟩ := gather_memRead_of_written hw
  obtain ⟨t, u, ht, hu, hte, hue, huc⟩ := exec_getblk_then_csumblk hv hi (segmentBytes_of_data rfl hb)
  obtain ⟨v, hrng, hve, hvc⟩ := exec_csumrng_of_gather (segment_data_le_dmemSize hs hv hi) hb
  refine ⟨t, u, v, ht, hu, hrng, hte, hue, hve, ?_⟩
  rw [huc, hvc, checksum_append_zeros]

end Sys2Proof.Machine

/-!
The frame's body (42_segmenter.md R99) told as one run of the padded file's bytes, and the reconstruction law (R98).
-/

namespace Sys2Proof.Machine

/-! ### The frame's body is one run of bytes -/

theorem gather_add (f : Nat → Except Fault Byte) (a n p : Nat) :
    gather f a (n + p) = do return (← gather f a n) ++ (← gather f (a + n) p) := by
  induction n generalizing a with
  | zero =>
    rw [Nat.zero_add]
    cases gather f a p <;> rfl
  | succ n ih =>
    rw [Nat.add_right_comm, gather, gather, ih, Nat.add_right_comm a 1 n, Nat.add_assoc a n 1]
    cases f a with
    | error e => rfl
    | ok b =>
      cases gather f (a + 1) n with
      | error e => rfl
      | ok bs => cases gather f (a + (n + 1)) p <;> rfl

/-- Successive segments are one run of the padded file, with the same fault where a byte of it cannot be read. -/
theorem frameBody_eq_gather (m : Memory) (len i n : Nat) :
    frameBody m len i n = gather (segmentByte m len) (128 * i) (128 * n) := by
  induction n generalizing i with
  | zero => rfl
  | succ n ih =>
    have hseg : segmentBytes m len i = gather (segmentByte m len) (128 * i) 128 := rfl
    rw [frameBody, ih, hseg, Nat.mul_succ 128 n, Nat.add_comm _ 128, gather_add, ← Nat.mul_succ 128 i]
    cases gather (segmentByte m len) (128 * i) 128 with
    | error e => rfl
    | ok seg => cases gather (segmentByte m len) (128 * (i + 1)) (128 * n) <;> rfl

/-! ### A file that DMEM holds from address 0 -/

section
variable {m : Memory} {file : List Byte} (hfit : file.length ≤ 8388480)
  (hfile : ∀ k (h : k < file.length), Memory.lookup m k = some file[k])
include hfit hfile

theorem bytesWritten_of_file {a n : Nat} (h : a + n ≤ file.length) : bytesWritten m a n := fun k hk => by
  have hlt : a + k < file.length := by omega
  exact ⟨Nat.lt_of_lt_of_le hlt hfit, by rw [hfile _ hlt]; rfl⟩

theorem gather_memRead_file : gather (memRead m) 0 file.length = .ok file := by
  rw [gather_ok_iff]
  refine ⟨rfl, fun k hk => ?_⟩
  rw [Nat.zero_add, memRead_ok_iff]
  exact ⟨Nat.lt_of_lt_of_le hk hfit, hfile k hk⟩

theorem segmentBytes_of_file {i : Nat} (hi : 128 * i < file.length) :
    ∃ seg, segmentBytes m file.length i = .ok seg ∧ seg.length = 128 := by
  obtain ⟨bs, hb⟩ := gather_memRead_of_written
    (bytesWritten_of_file hfit hfile (a := 128 * i) (n := min 128 (file.length - 128 * i)) (by omega))
  have hseg := segmentBytes_of_data rfl hb
  exact ⟨_, hseg, gather_length hseg⟩

/-- Enough segments to cover the file form it and then zeros. -/
theorem frameBody_of_file {n : Nat} (hn : file.length ≤ 128 * n) :
    frameBody m file.length 0 n = .ok (file ++ List.replicate (128 * n - file.length) 0x00) := by
  have hdata : gather (segmentByte m file.length) 0 file.length = .ok file := by
    rw [← gather_memRead_file hfit hfile]
    exact gather_congr fun k hk => segmentByte_data (by omega)
  have hpad : gather (segmentByte m file.length) (0 + file.length) (128 * n - file.length) =
      .ok (List.replicate (128 * n - file.length) 0x00) :=
    gather_const fun k _ => segmentByte_padding (by omega)
  have h := gather_append hdata hpad
  rw [Nat.add_sub_cancel' hn] at h
  rw [frameBody_eq_gather, Nat.mul_zero, h]

end

/-- Settles O27: the segments are one run of the padded file, which is the file and then zeros. -/
theorem segmentsRebuildTheFile : Obligations.SegmentsRebuildTheFile := by
  intro m file hfit hfile
  have hcover : file.length ≤ 128 * ((file.length + 127) / 128) := by omega
  refine ⟨fun i hi => segmentBytes_of_file hfit hfile (by omega), _, frameBody_of_file hfit hfile hcover, ?_, ?_, ?_⟩
  · rw [List.length_append, List.length_replicate, Nat.add_sub_cancel' hcover]
  · exact List.take_left
  · rw [List.drop_left]
    exact fun b hb => List.eq_of_mem_replicate hb

end Sys2Proof.Machine

/-!
The header's bytes (43_header_builder.md R102) read back: its name bytes and its count (R106).
-/

namespace Sys2Proof.Machine

@[simp] theorem le16_length (v : Word) : (le16 v).length = 2 := rfl

@[simp] theorem headerBytes_length (fname : Vector Byte 11) (n : Word) : (headerBytes fname n).length = 14 := by
  simp [headerBytes]

theorem le16_toNat (v : Word) : (le16 v)[0].toNat + 256 * (le16 v)[1].toNat = v.toNat % 65536 := by
  simp only [le16, List.getElem_cons_zero, List.getElem_cons_succ, BitVec.extractLsb'_toNat,
    Nat.shiftRight_eq_div_pow, Nat.reducePow]
  omega

theorem headerName_headerBytes (fname : Vector Byte 11) (n : Word) :
    headerName (arrayOf 14 (headerBytes fname n)) = fname.toList := by
  rw [headerName, arrayOf_toList (headerBytes_length fname n)]
  exact List.take_left' (Vector.length_toList)

theorem arrayOf_headerBytes_count (fname : Vector Byte 11) (n : Word) {k : Nat} (hk : k < 2) :
    (arrayOf 14 (headerBytes fname n))[12 + k] = (le16 n)[k] := by
  have hlen : ([Config.startMarker] ++ fname.toList).length = 12 := by simp
  rw [arrayOf_getElem, headerBytes, List.getD_append_right _ _ _ _ (by omega), hlen, Nat.add_sub_cancel_left]
  exact List.getD_eq_getElem _ _ hk

theorem headerCount_headerBytes (fname : Vector Byte 11) {n : Word} (hn : n.toNat ≤ 65535) :
    headerCount (arrayOf 14 (headerBytes fname n)) = n.toNat := by
  have hlow := arrayOf_headerBytes_count fname n (k := 0) (by decide)
  have hhigh := arrayOf_headerBytes_count fname n (k := 1) (by decide)
  rw [headerCount, hlow, hhigh, le16_toNat]
  omega

/-- Settles O31: BUILDHDR commits `headerBytes` of FNAME and CNT, whose name bytes and count read back exactly. -/
theorem headerRoundTrip : Obligations.HeaderRoundTrip := by
  intro s hv hc
  have hname := headerName_headerBytes s.fname s.cnt
  have hcount := headerCount_headerBytes s.fname hc
  exact ⟨_, exec_of_committed (i := .buildhdr) ⟨hv, hc, rfl⟩, by simp, hname, hcount, hname, hcount⟩

end Sys2Proof.Machine

/-!
The completion of 60_exceptions.md: a failing command leaves the error and nothing else (R113), and the outcome it
reports is the first in the check order (R114, R115).
-/

namespace Sys2Proof.Machine

/-! ### A failing command -/

theorem finishErr_eq_errorResult (e : ErrCode) (s : State) : finishErr e s = errorResult e s := rfl

/-- Settles O33: a command that completes either raised its error, which touches STATUS and LATCHED alone, or
reports OK. -/
theorem failingCommandWritesOnlyStatus : Obligations.FailingCommandWritesOnlyStatus := by
  intro i s t h herr
  rcases exec_next_cases h with ⟨e, -, rfl⟩ | ⟨u, -, rfl⟩
  · have hnop : exec .nop (finishErr e s) = .next (finishOk (finishErr e s)) := exec_of_committed (i := .nop) rfl
    exact ⟨finishErr_eq_errorResult e s, by simp, busy_of_latched_none rfl, _, hnop, by simp⟩
  · simp at herr

/-! ### The engine's faults and SEGMENT's bound -/

theorem exec_csumrng_fault {s : State} {f : Fault} (hr : s.rbase.toNat + s.rlen.toNat ≤ Config.dmemSize)
    (hf : gather (memRead s.dmem) s.rbase.toNat s.rlen.toNat = .error f) : exec .csumrng s = .fault f := by
  simp only [exec, execCsumrng, gt_iff_lt, if_neg (Nat.not_lt.2 hr), hf]

theorem exec_getblk_fault {s : State} {i : Nat} {f : Fault} (hv : s.status.segValid = true) (hi : i < s.cnt.toNat)
    (hf : segmentBytes s.dmem s.dataLen.toNat i = .error f) : exec (.getblk i) s = .fault f := by
  simp only [exec, execGetblk, hv, ge_iff_le, if_neg (Nat.not_le.2 hi), hf, Bool.true_eq_false, if_false]

/-- A file has too many blocks exactly when it exceeds MAX_DATA_LEN (42_segmenter.md R93). -/
theorem maxBlocks_lt_blockCount_iff (len : Nat) : 65535 < blockCount len ↔ 8388480 < len := by
  rw [blockCount]
  omega

/-! ### The outcome a command reports -/

section
variable {i : Instr} {s t : State} (h : exec i s = .next t)
include h

theorem err_of_raised {e : ErrCode} (hr : exec i s = .next (finishErr e s)) : t.status.err = e := by
  cases h.symm.trans hr
  rfl

theorem err_of_committed {u : State} (hu : Committed i s u) : t.status.err = .ok := by
  cases h.symm.trans (exec_of_committed hu)
  rfl

/-- A completed command reports the first check that fails, OK when none does. -/
theorem err_eq_firstError : t.status.err = firstError i s := by
  cases i with
  | nop => exact err_of_committed h rfl
  | sreset => exact err_of_committed h rfl
  | encfn =>
    simp only [firstError]
    split_ifs with hlen hname
    · exact err_of_raised h (exec_encfn_range hlen)
    · exact err_of_raised h (exec_encfn_invalid (Nat.not_lt.1 hlen) hname)
    · obtain ⟨r, hr⟩ := Option.ne_none_iff_exists'.1 hname
      exact err_of_committed h ⟨Nat.not_lt.1 hlen, r, hr, rfl⟩
  | csumblk =>
    simp only [firstError]
    split_ifs with hv
    · exact err_of_raised h (exec_csumblk_sequence hv)
    · exact err_of_committed h ⟨Bool.eq_true_of_not_eq_false hv, rfl⟩
  | csumrng =>
    simp only [firstError]
    split_ifs with hr
    · exact err_of_raised h (exec_csumrng_range hr)
    · have hr := Nat.not_lt.1 hr
      cases hb : gather (memRead s.dmem) s.rbase.toNat s.rlen.toNat with
      | error f => cases h.symm.trans (exec_csumrng_fault hr hb)
      | ok bs => exact err_of_committed h ⟨hr, bs, hb, rfl⟩
  | segment =>
    simp only [firstError, ← maxBlocks_lt_blockCount_iff]
    split_ifs with hc
    · exact err_of_raised h (exec_segment_tooLarge hc)
    · exact err_of_committed h ⟨Nat.not_lt.1 hc, rfl⟩
  | getblk n =>
    simp only [firstError]
    split_ifs with hv hn
    · exact err_of_raised h (exec_getblk_sequence n hv)
    · exact err_of_raised h (exec_getblk_range (Bool.eq_true_of_not_eq_false hv) hn)
    · have hv := Bool.eq_true_of_not_eq_false hv
      have hn := Nat.not_le.1 hn
      cases hb : segmentBytes s.dmem s.dataLen.toNat n with
      | error f => cases h.symm.trans (exec_getblk_fault hv hn hb)
      | ok bs => exact err_of_committed h ⟨hv, hn, bs, hb, rfl⟩
  | buildhdr =>
    simp only [firstError]
    split_ifs with hv hc
    · exact err_of_raised h (exec_buildhdr_sequence hv)
    · exact err_of_raised h (exec_buildhdr_count (Bool.eq_true_of_not_eq_false hv) hc)
    · exact err_of_committed h ⟨Bool.eq_true_of_not_eq_false hv, Nat.not_lt.1 hc, rfl⟩

end

/-- Settles O35: an illegal word raises IllegalCommand, and any other word reports its command's first failing
check. -/
theorem checksAreMadeInOrder : Obligations.ChecksAreMadeInOrder := by
  intro w s t h
  constructor
  · intro r hr
    rw [execWord_illegal hr] at h
    cases h
    rfl
  · intro i hi
    rw [execWord_instr hi] at h
    exact err_eq_firstError h

end Sys2Proof.Machine

/-!
The decoder and the encoder told by the rows of the opcode map (30_encoding.md R65, R67): a word decodes to an
instruction exactly when it matches that row and GETBLK's index is bits 23:8, and an encoding is such a word.
-/

namespace Sys2Proof

/-! ### A word and its row -/

theorem encode_getblk_toNat {n : Nat} (hn : n < 65536) : (encode (.getblk n)).toNat = n * 256 + 5 := by
  have hadd : n <<< 8 + 5 = n <<< 8 ||| 5 := Nat.shiftLeft_add_eq_or_of_lt (by decide) n
  have hmod : n % 2 ^ 32 = n := Nat.mod_eq_of_lt (by omega)
  rw [Nat.shiftLeft_eq] at hadd
  rw [encode, BitVec.toNat_or, BitVec.toNat_shiftLeft, BitVec.toNat_ofNat, hmod, Nat.shiftLeft_eq,
    Nat.mod_eq_of_lt (by omega)]
  exact hadd.symm

theorem encode_and_rowMask {i : Instr} (h : i.wellFormed = true) : encode i &&& rowMask i = rowMatch i :=
  match i with
  | .nop => Laws.RowEncoding.nop h
  | .encfn => Laws.RowEncoding.encfn h
  | .csumblk => Laws.RowEncoding.csumblk h
  | .csumrng => Laws.RowEncoding.csumrng h
  | .segment => Laws.RowEncoding.segment h
  | .getblk n => Laws.RowEncoding.getblk n h
  | .buildhdr => Laws.RowEncoding.buildhdr h
  | .sreset => Laws.RowEncoding.sreset h

/-- Only GETBLK's row leaves bits out, and its match value tells it. -/
theorem rowMask_eq_of_rowMatch (i : Instr) :
    rowMask i = if rowMatch i = 0x00000005 then 0xFF0000FF else 0xFFFFFFFF := by
  cases i <;> simp [rowMask, rowMatch]

theorem rowMatch_toNat_eq_five_iff (i : Instr) : (rowMatch i).toNat = 0x05 ↔ ∃ n, i = .getblk n := by
  cases i <;> simp [rowMatch]

theorem rowMatch_eq_of_and_rowMask_eq {w : Word} {i j : Instr} (hi : w &&& rowMask i = rowMatch i)
    (hj : w &&& rowMask j = rowMatch j) : rowMatch i = rowMatch j := by
  rw [and_rowMask_eq_rowMatch_iff] at hi hj
  exact BitVec.eq_of_toNat_eq (hi.2.1.symm.trans hj.2.1)

/-! ### The decoder by the rows -/

theorem index_of_decode_eq_getblk {w : Word} {n : Nat} (h : decode w = .instr (.getblk n)) :
    n = w.toNat / 256 % 65536 := by
  unfold decode at h
  split at h
  · cases h
  · split at h
    · cases h
      exact immField_toNat w
    · split at h
      · cases h
      · unfold decodeOp at h
        split at h <;> cases h

theorem decodeOp_eq_instr {op : BitVec 8} {i : Instr} (h : op.toNat = (rowMatch i).toNat)
    (hi : ∀ n, i ≠ .getblk n) : decodeOp op = .instr i := by
  cases i with
  | getblk n => exact absurd rfl (hi n)
  | _ => simp [decodeOp, h, rowMatch]

theorem decode_of_row {w : Word} {i : Instr} (h : w &&& rowMask i = rowMatch i)
    (hn : ∀ n, i = .getblk n → n = w.toNat / 256 % 65536) : decode w = .instr i := by
  obtain ⟨hrsv, hop, himm⟩ := (and_rowMask_eq_rowMatch_iff w i).1 h
  rw [← rsvField_toNat] at hrsv
  rw [← opField_toNat] at hop himm
  have hrsv0 : rsvField w = 0 := BitVec.eq_of_toNat_eq hrsv
  rw [decode, if_neg (not_not.2 hrsv0)]
  by_cases h5 : (opField w).toNat = 0x05
  · obtain ⟨n, rfl⟩ := (rowMatch_toNat_eq_five_iff i).1 (hop.symm.trans h5)
    rw [if_pos (BitVec.eq_of_toNat_eq h5), immField_toNat, ← hn n rfl]
  · have h5' : opField w ≠ 0x05 := fun he => h5 (congrArg BitVec.toNat he)
    have himm0 : immField w = 0 := BitVec.eq_of_toNat_eq ((immField_toNat w).trans (himm.resolve_right h5))
    rw [if_neg h5', if_neg (not_not.2 himm0)]
    refine decodeOp_eq_instr hop ?_
    rintro n rfl
    exact h5 hop

theorem decode_eq_instr_iff (w : Word) (i : Instr) :
    decode w = .instr i ↔
      w &&& rowMask i = rowMatch i ∧ ∀ n, i = .getblk n → n = w.toNat / 256 % 65536 := by
  refine ⟨fun h => ⟨row_of_decode_eq_instr h, ?_⟩, fun ⟨h, hn⟩ => decode_of_row h hn⟩
  rintro n rfl
  exact index_of_decode_eq_getblk h

theorem wellFormed_of_decode_eq_instr {w : Word} {i : Instr} (h : decode w = .instr i) : i.wellFormed = true := by
  cases i with
  | getblk n =>
    have hn := index_of_decode_eq_getblk h
    exact decide_eq_true (by omega)
  | _ => rfl

/-- A legal word drops no bit: its instruction gives all three of its fields. -/
theorem eq_of_decode_eq_instr {v w : Word} {i : Instr} (hv : decode v = .instr i) (hw : decode w = .instr i) :
    v = w := by
  obtain ⟨hv, hvn⟩ := (decode_eq_instr_iff v i).1 hv
  obtain ⟨hw, hwn⟩ := (decode_eq_instr_iff w i).1 hw
  obtain ⟨hvr, hvop, hvimm⟩ := (and_rowMask_eq_rowMatch_iff v i).1 hv
  obtain ⟨hwr, hwop, hwimm⟩ := (and_rowMask_eq_rowMatch_iff w i).1 hw
  have himm : v.toNat / 256 % 65536 = w.toNat / 256 % 65536 := by
    by_cases h5 : (rowMatch i).toNat = 0x05
    · obtain ⟨n, rfl⟩ := (rowMatch_toNat_eq_five_iff i).1 h5
      exact (hvn n rfl).symm.trans (hwn n rfl)
    · omega
  apply BitVec.eq_of_toNat_eq
  omega

/-! ### The statements -/

/-- Settles O1: an encoding has its row's fixed bits, and GETBLK's has the index in bits 23:8. -/
theorem decodeOfEncodeIsTheInstruction : Obligations.DecodeOfEncodeIsTheInstruction := by
  intro i h
  refine decode_of_row (encode_and_rowMask h) ?_
  rintro n rfl
  have hn : n < 65536 := of_decide_eq_true h
  rw [encode_getblk_toNat hn]
  omega

/-- Settles O2: the encoding decodes to the same instruction, and no two words do. -/
theorem encodeOfDecodedIsTheWord : Obligations.EncodeOfDecodedIsTheWord := by
  intro w i h
  have hwf := wellFormed_of_decode_eq_instr h
  exact ⟨hwf, eq_of_decode_eq_instr (decodeOfEncodeIsTheInstruction i hwf) h⟩

/-- Settles O3: the decoder goes by the row, and two rows that match one word have its OP. -/
theorem wordSelectsItsTableRow : Obligations.WordSelectsItsTableRow := by
  refine fun w i => ⟨decode_eq_instr_iff w i, fun j hi hj => ?_⟩
  have hm := rowMatch_eq_of_and_rowMask_eq hi hj
  exact ⟨hm, by rw [rowMask_eq_of_rowMatch, rowMask_eq_of_rowMatch, hm]⟩

/-- Settles O5: each row of the reference table evaluated. -/
theorem referenceEncodings : Obligations.ReferenceEncodings := by
  unfold Obligations.ReferenceEncodings
  decide

end Sys2Proof

/-!
The invariant `State.Inv` (10_state.md R40): it holds at reset, every command's writes and every move of the outside
world keep it, and so does a step.
-/

namespace Sys2Proof.Machine

/-! ### States the invariant carries over to -/

/-- The invariant speaks of HB's record and, while it is asserted, of the reset input. -/
theorem inv_of_toHb_eq {s t : State} (hs : s.Inv) (hb : t.toHb = s.toHb)
    (hp : t.resetPin = true → s.resetPin = true) : t.Inv where
  dmemWf := by rw [hb]; exact hs.dmemWf
  segCount := by rw [hb]; exact hs.segCount
  fnameAscii := by rw [hb]; exact hs.fnameAscii
  headerMarker := by rw [hb]; exact hs.headerMarker
  blkIdxBound := by rw [hb]; exact hs.blkIdxBound
  errSeenSticky := by rw [hb]; exact hs.errSeenSticky
  heldInReset h := by rw [hb]; exact hs.heldInReset (hp h)

/-- The reset values meet the invariant over every canonical DMEM. -/
theorem inv_of_resetValues {t : State} {m : Memory} (hm : Memory.wf m) (hb : t.toHb = { Hb.reset with dmem := m }) :
    t.Inv where
  dmemWf := by rw [hb]; exact hm
  segCount h := by simp [hb] at h
  fnameAscii h := by simp [hb] at h
  headerMarker h := by simp [hb] at h
  blkIdxBound h := by simp [hb] at h
  errSeenSticky _ := by rw [hb]; rfl
  heldInReset _ := by rw [hb]

/-- Settles O55: the reset state holds the reset values, with nothing in DMEM. -/
theorem resetMeetsTheInvariant : Obligations.ResetMeetsTheInvariant :=
  inv_of_resetValues (m := []) wf_nil rfl

/-- No command is in flight while the reset input is asserted. -/
theorem resetPin_eq_false_of_latched {s : State} {w : Word} (hs : s.Inv) (hl : s.latched = some w) :
    s.resetPin = false := by
  by_contra hp
  rw [hs.heldInReset (Bool.eq_true_of_not_eq_false hp)] at hl
  cases hl

/-! ### The engine's completion -/

section
variable {s : State} (hs : s.Inv) (hp : s.resetPin = false)
include hs hp

theorem inv_finishErr (e : ErrCode) : (finishErr e s).Inv where
  dmemWf := hs.dmemWf
  segCount := hs.segCount
  fnameAscii := hs.fnameAscii
  headerMarker := hs.headerMarker
  blkIdxBound := hs.blkIdxBound
  errSeenSticky h := by simp at h
  heldInReset h := by simp [hp] at h

theorem inv_finishOk : (finishOk s).Inv where
  dmemWf := hs.dmemWf
  segCount := hs.segCount
  fnameAscii := hs.fnameAscii
  headerMarker := hs.headerMarker
  blkIdxBound := hs.blkIdxBound
  errSeenSticky _ := rfl
  heldInReset h := by simp [hp] at h

theorem inv_setFname {v : Vector Byte 11} (hv : ∀ b ∈ v.toList, asciiNoLower b) : (setFname v s).Inv :=
  { hs with
    fnameAscii := fun _ => hv
    heldInReset := fun h => by simp [hp] at h }

theorem inv_setCsum (v : Byte) : (setCsum v s).Inv :=
  { hs with heldInReset := fun h => by simp [hp] at h }

theorem inv_setCount {v : Word} (hv : v.toNat = (s.dataLen.toNat + 127) / 128 ∧ v.toNat ≤ 65535) :
    (setCount v s).Inv :=
  { hs with
    segCount := fun _ => hv
    heldInReset := fun h => by simp [hp] at h }

theorem inv_setBlock (v : Vector Byte 128) {i : BitVec 16} (hi : i.toNat < 65535) : (setBlock v i s).Inv :=
  { hs with
    blkIdxBound := fun _ => hi
    heldInReset := fun h => by simp [hp] at h }

theorem inv_setHeader {v : Vector Byte 14} (hv : v[0] = 0x01) : (setHeader v s).Inv :=
  { hs with
    headerMarker := fun _ => hv
    heldInReset := fun h => by simp [hp] at h }

/-- A command's writes keep the invariant. -/
theorem inv_of_committed {i : Instr} {u : State} (h : Committed i s u) : u.Inv := by
  cases i <;> simp only [Committed] at h
  case nop => subst h; exact hs
  case sreset => subst h; exact inv_of_resetValues hs.dmemWf (softReset_toHb s)
  case encfn =>
    obtain ⟨-, r, hr, rfl⟩ := h
    refine inv_setFname hs hp ?_
    rw [arrayOf_toList (encodeName_length hr)]
    exact encodeName_asciiNoLower hr
  case csumblk => obtain ⟨-, rfl⟩ := h; exact inv_setCsum hs hp _
  case csumrng => obtain ⟨-, bs, -, rfl⟩ := h; exact inv_setCsum hs hp _
  case segment =>
    obtain ⟨hc, rfl⟩ := h
    have hn : (BitVec.ofNat 32 (blockCount s.dataLen.toNat)).toNat = blockCount s.dataLen.toNat :=
      Nat.mod_eq_of_lt (by omega)
    exact inv_setCount hs hp ⟨hn, hn.trans_le hc⟩
  case getblk i =>
    obtain ⟨hv, hi, bs, -, rfl⟩ := h
    obtain ⟨-, hmax⟩ := hs.segCount hv
    have hn : (BitVec.ofNat 16 i).toNat = i := Nat.mod_eq_of_lt (by omega)
    exact inv_setBlock hs hp _ (by omega)
  case buildhdr =>
    obtain ⟨-, -, rfl⟩ := h
    exact inv_setHeader hs hp (by simp [headerBytes])

end

theorem inv_of_execWord {s u : State} {w : Word} (hs : s.Inv) (hl : s.latched = some w)
    (h : execWord w s = .next u) : u.Inv := by
  have hp := resetPin_eq_false_of_latched hs hl
  rcases execWord_next h with ⟨i, -, hx⟩ | ⟨r, -, rfl⟩
  · rcases exec_next_cases hx with ⟨e, -, rfl⟩ | ⟨v, hv, rfl⟩
    · exact inv_finishErr hs hp e
    · obtain ⟨-, -, hpin, -, -⟩ := exec_own_fields hx
      exact inv_finishOk (inv_of_committed hs hp hv) (hpin.trans hp)
  · exact inv_finishErr hs hp _

/-! ### The outside world's moves -/

theorem inv_writeReg {s : State} (hs : s.Inv) (hp : s.resetPin = false) (loc : RegLoc) (v : Word) :
    (writeReg loc v s).Inv := by
  obtain ⟨hdmem, -, -, hpin, -, -⟩ := writeReg_rest loc v s
  obtain ⟨hfname, hheader, -, hidx, -, hstatus, hseg⟩ := writeReg_results loc v s
  constructor
  case dmemWf => rw [hdmem]; exact hs.dmemWf
  case segCount =>
    intro h
    obtain ⟨hv, hcnt, hlen⟩ := hseg h
    rw [hcnt, hlen]
    exact hs.segCount hv
  case fnameAscii => rw [hstatus, hfname]; exact hs.fnameAscii
  case headerMarker => rw [hstatus, hheader]; exact hs.headerMarker
  case blkIdxBound => rw [hstatus, hidx]; exact hs.blkIdxBound
  case errSeenSticky => rw [hstatus]; exact hs.errSeenSticky
  case heldInReset =>
    intro h
    rw [hpin, hp] at h
    cases h

theorem inv_store {s : State} (hs : s.Inv) (hp : s.resetPin = false) {a : Nat} (ha : a < Config.dmemSize) (b : Byte) :
    ({ s with dmem := Memory.store s.dmem a b } : State).Inv :=
  { hs with
    dmemWf := wf_store b hs.dmemWf ha
    heldInReset := fun h => by simp [hp] at h }

/-- Every move of the outside world keeps the invariant. -/
theorem inv_of_performed {m : Move} {s t : State} (hs : s.Inv) (h : Performed m s t) : t.Inv := by
  cases m with
  | wr off v =>
    obtain ⟨hp, -, -, rfl⟩ := h
    exact inv_of_toHb_eq (inv_writeReg hs hp (regLoc off) v) (nextDraw_toHb _) id
  | rd off => obtain ⟨-, -, rfl⟩ := h; exact inv_of_toHb_eq hs rfl id
  | wrb a b =>
    obtain ⟨hp, -, ⟨ha, rfl⟩ | ⟨-, rfl⟩⟩ := h
    · exact inv_of_toHb_eq (inv_store hs hp ha b) (nextDraw_toHb _) id
    · exact inv_of_toHb_eq hs (nextDraw_toHb s) id
  | rdb a => obtain ⟨-, rfl⟩ := h; exact inv_of_toHb_eq hs rfl id
  | poll => obtain ⟨-, rfl⟩ := h; exact inv_of_toHb_eq hs rfl id
  | narrow off => exact h.elim
  | powerOn => obtain rfl := h; exact inv_of_resetValues (m := []) wf_nil (powerOn_toHb s)
  | resetAssert => obtain rfl := h; exact inv_of_resetValues hs.dmemWf (resetAssert_toHb s)
  | resetRelease => obtain rfl := h; exact inv_of_toHb_eq hs (resetRelease_toHb s) (by simp)

/-- Settles O56: a completion commits a command's writes or an error, and any other step is a move of the outside
world or none. -/
theorem stepKeepsTheInvariant : Obligations.StepKeepsTheInvariant := by
  intro s t hs h
  rcases step_next_cases h with ⟨w, u, hw, hu, rfl⟩ | ⟨u, hturn, hcases⟩
  · exact inv_of_toHb_eq (inv_of_execWord hs hw.1 hu) (afterCompletion_toHb u) id
  · obtain ⟨hhb, -, hpin⟩ := worldTurn_toHb hturn
    have hu : u.Inv := inv_of_toHb_eq hs hhb hpin.symm.trans
    rcases hcases with ⟨-, rfl⟩ | ⟨m, ms, -, hp⟩
    · exact hu
    · have hms : ({ u with moves := ms } : State).Inv := inv_of_toHb_eq hu rfl id
      exact inv_of_performed hms hp

end Sys2Proof.Machine

/-!
The assembler (30_encoding.md R72): a line is a mnemonic without an operand, or a mnemonic, one space and an operand;
what it accepts of each form, and the words it gives.
-/

namespace Sys2Proof.Machine

/-! ### Numbers -/

/-- A number is a spelling of its digits, and has their value. -/
theorem parseNumber_value {cs : List Char} {n : Nat} (h : parseNumber cs = some n) :
    (∃ ds : List Nat, ds ≠ [] ∧ (∀ d ∈ ds, d < 10) ∧ cs = ds.map Nat.digitChar ∧
        n = Nat.ofDigits 10 ds.reverse) ∨
      ∃ ds : List (Nat × Bool), ds ≠ [] ∧ (∀ d ∈ ds, d.1 < 16) ∧ cs = '0' :: 'x' :: ds.map hexChar ∧
        n = Nat.ofDigits 16 (ds.map Prod.fst).reverse := by
  rcases parseNumber_eq_some h with ⟨ds, hne, hds, rfl⟩ | ⟨ds, hne, hds, rfl⟩
  · rw [parseNumber_decimal hne hds] at h
    exact .inl ⟨ds, hne, hds, rfl, (Option.some.inj h).symm⟩
  · rw [parseNumber_hex hne hds] at h
    exact .inr ⟨ds, hne, hds, rfl, (Option.some.inj h).symm⟩

/-! ### Lines without an operand -/

theorem assemble_of_not_mem_space {line : List Char} (h : ' ' ∉ line) :
    assemble line = (plainMnemonic line).map encode := by
  have hd : line.dropWhile (fun c => c != ' ') = [] :=
    List.dropWhile_eq_nil_iff.2 fun c hc => bne_iff_ne.2 (ne_of_mem_of_not_mem hc h)
  rw [assemble, parseCommand, hd]

theorem plainMnemonic_map_encode_eq_some_iff (line : List Char) (w : Word) :
    (plainMnemonic line).map encode = some w ↔
      (line = "NOP".toList ∧ w = 0x00000000) ∨ (line = "ENCFN".toList ∧ w = 0x00000001) ∨
        (line = "CSUMBLK".toList ∧ w = 0x00000002) ∨ (line = "CSUMRNG".toList ∧ w = 0x00000003) ∨
        (line = "SEGMENT".toList ∧ w = 0x00000004) ∨ (line = "BUILDHDR".toList ∧ w = 0x00000006) ∨
        (line = "SRESET".toList ∧ w = 0x0000000F) := by
  unfold plainMnemonic
  split_ifs <;> simp_all [encode, eq_comm (a := w)]

theorem plainMnemonic_of_mem_space {line : List Char} (h : ' ' ∈ line) : plainMnemonic line = none := by
  unfold plainMnemonic
  split_ifs <;> simp_all

/-! ### Lines with an operand -/

theorem parseCommand_operand {name : List Char} (operand : List Char) (h : ' ' ∉ name) :
    parseCommand (name ++ ' ' :: operand) =
      if name = "GETBLK".toList then
        (parseNumber operand).bind fun n => if n < 65536 then some (.getblk n) else none
      else none := by
  obtain ⟨htake, hdrop⟩ := takeWhile_dropWhile_space operand h
  simp only [parseCommand, htake, hdrop]
  cases parseNumber operand <;> rfl

theorem assemble_operand_eq_none {name operand : List Char} (h : ' ' ∉ name) (hn : name ≠ "GETBLK".toList) :
    assemble (name ++ ' ' :: operand) = none := by
  rw [assemble, parseCommand_operand operand h, if_neg hn, Option.map_none]

theorem encode_getblk_eq_iff {n : Nat} (hn : n < 65536) (w : Word) :
    encode (.getblk n) = w ↔ w.toNat = n * 256 + 5 := by
  rw [← BitVec.toNat_inj, encode_getblk_toNat hn, eq_comm]

theorem assemble_getblk (operand : List Char) :
    assemble ("GETBLK".toList ++ ' ' :: operand) =
      (parseNumber operand).bind fun n => if n < 65536 then some (encode (.getblk n)) else none := by
  rw [assemble, parseCommand_operand operand (by decide), if_pos rfl, Option.map_bind]
  congr 1
  funext n
  exact apply_ite _ _ _ _

theorem assemble_getblk_eq_some_iff (operand : List Char) (w : Word) :
    assemble ("GETBLK".toList ++ ' ' :: operand) = some w ↔
      ∃ n, parseNumber operand = some n ∧ n < 65536 ∧ w.toNat = n * 256 + 5 := by
  rw [assemble_getblk, Option.bind_eq_some_iff]
  refine exists_congr fun n => and_congr_right fun _ => ?_
  split
  next hn => simp [hn, encode_getblk_eq_iff hn w]
  next hn => simp [hn]

theorem assemble_getblk_out_of_range {operand : List Char} {n : Nat} (h : parseNumber operand = some n)
    (hn : 65536 ≤ n) : assemble ("GETBLK".toList ++ ' ' :: operand) = none := by
  rw [assemble_getblk, h, Option.bind_some, if_neg (Nat.not_lt.2 hn)]

/-! ### Every line -/

/-- A line is cut at its first space; with none it is a mnemonic alone. -/
theorem assemble_eq_some_iff (line : List Char) (w : Word) :
    assemble line = some w ↔
      (plainMnemonic line).map encode = some w ∨
        ∃ operand, line = "GETBLK".toList ++ ' ' :: operand ∧
          ∃ n, parseNumber operand = some n ∧ n < 65536 ∧ w.toNat = n * 256 + 5 := by
  simp only [← assemble_getblk_eq_some_iff]
  by_cases h : ' ' ∈ line
  · obtain ⟨name, operand, rfl, hname⟩ := List.eq_append_cons_of_mem h
    rw [plainMnemonic_of_mem_space h]
    constructor
    · intro hw
      by_cases hg : name = "GETBLK".toList
      · subst hg
        exact .inr ⟨operand, rfl, hw⟩
      · rw [assemble_operand_eq_none hname hg] at hw
        cases hw
    · rintro (hw | ⟨operand', hline, hw⟩)
      · cases hw
      · rwa [hline]
  · rw [assemble_of_not_mem_space h]
    refine ⟨.inl, ?_⟩
    rintro (hw | ⟨operand, rfl, -⟩)
    · exact hw
    · exact absurd (List.mem_append_right _ List.mem_cons_self) h

/-- The assembler makes only well-formed instructions. -/
theorem wellFormed_of_parseCommand {line : List Char} {i : Instr} (h : parseCommand line = some i) :
    i.wellFormed = true := by
  cases i with
  | getblk n =>
    unfold parseCommand at h
    split at h
    · unfold plainMnemonic at h
      split_ifs at h <;> cases h
    · split_ifs at h
      split at h
      · cases h
      · split_ifs at h with hn
        cases h
        exact decide_eq_true hn
  | _ => rfl

/-! ### The statement -/

/-- Settles O6: `assemble_eq_some_iff` with GETBLK's operand spelled in digits, decimal or hexadecimal
(`parseNumber_value`). -/
theorem assembledWordsDecodeToTheirCommand : Obligations.AssembledWordsDecodeToTheirCommand := by
  refine ⟨fun line w => ?_, fun ds hds hn => ?_, fun ds hds hn => ?_, fun name operand hs hn => ?_,
    fun line w h => ?_⟩
  · rw [assemble_eq_some_iff, plainMnemonic_map_encode_eq_some_iff]
    refine or_congr_right ⟨?_, ?_⟩
    · rintro ⟨operand, rfl, n, hp, hn, hw⟩
      rcases parseNumber_value hp with ⟨ds, hne, hds, rfl, rfl⟩ | ⟨ds, hne, hds, rfl, rfl⟩
      · exact .inl ⟨ds, hne, hds, hn, rfl, hw⟩
      · exact .inr ⟨ds, hne, hds, hn, rfl, hw⟩
    · rintro (⟨ds, hne, hds, hn, rfl, hw⟩ | ⟨ds, hne, hds, hn, rfl, hw⟩)
      · exact ⟨_, rfl, _, parseNumber_decimal hne hds, hn, hw⟩
      · exact ⟨_, rfl, _, parseNumber_hex hne hds, hn, hw⟩
  · have hne : ds ≠ [] := by rintro rfl; simp at hn
    exact assemble_getblk_out_of_range (parseNumber_decimal hne hds) hn
  · have hne : ds ≠ [] := by rintro rfl; simp at hn
    exact assemble_getblk_out_of_range (parseNumber_hex hne hds) hn
  · exact assemble_operand_eq_none hs hn
  · obtain ⟨i, hi, rfl⟩ := Option.map_eq_some_iff.1 h
    have hwf := wellFormed_of_parseCommand hi
    exact ⟨i, hi, hwf, rfl, decodeOfEncodeIsTheInstruction i hwf⟩

end Sys2Proof.Machine

/-!
The filename encoder's command (40_filename_encoder.md R76 to R84): what ENCFN writes, and its errors.
-/

namespace Sys2Proof.Machine

theorem isSeparator_eq_true_iff (b : Byte) : isSeparator b = true ↔ b = 0x2F ∨ b = 0x5C := by
  simp [isSeparator]

/-- A directory part and a component without a separator are what the encoder takes the path apart into. -/
theorem finalComponent_of_parts {dir comp : List Byte} (hd : isDirectoryPart dir) (hc : noSeparator comp) :
    finalComponent (dir ++ comp) = comp := by
  refine finalComponent_append (fun b hb => ?_) ?_
  · rw [← Bool.not_eq_true, isSeparator_eq_true_iff]
    exact not_or.2 (hc b hb)
  · simp only [isSeparator_eq_true_iff]
    exact hd

theorem splitName_of_parts {comp name ext : List Byte}
    (h : (comp = name ++ 0x2E :: ext ∧ 0x2E ∉ ext) ∨ (comp = name ∧ ext = [] ∧ 0x2E ∉ name)) :
    splitName comp = (name, ext) := by
  rcases h with ⟨rfl, hext⟩ | ⟨rfl, rfl, hname⟩
  · exact splitName_dot name fun b hb => ne_of_mem_of_not_mem hb hext
  · exact splitName_no_dot fun b hb => ne_of_mem_of_not_mem hb hname

theorem upper_toNat (b : Byte) : (upper b).toNat = upperCode b := by
  unfold upper upperCode
  simp only [BitVec.le_def, BitVec.reduceToNat]
  split
  next h =>
    rw [BitVec.toNat_sub]
    simp only [BitVec.reduceToNat]
    omega
  next => rfl

/-- A field's bytes have the codes of 40_filename_encoder.md R81. -/
theorem fit_getD_toNat (l : List Byte) {w k : Nat} (hk : k < w) (d : Byte) :
    ((fit l w).getD k d).toNat = fieldCode l k := by
  rw [fit_getD l hk, fieldCode]
  split
  next => exact upper_toNat _
  next => rfl

/-- Settles O15: the path's parts are the encoder's, and FNAME is their two fields. -/
theorem encfnWritesTheEncodedName : Obligations.EncfnWritesTheEncodedName := by
  intro s dir comp name ext hlen hpath hdir hcomp hascii hname hparts
  have hfinal : finalComponent (pathBytes s.toHb) = comp := by
    rw [pathBytes, hpath, finalComponent_of_parts hdir hcomp]
  have hsplit := splitName_of_parts hparts
  have henc : encodeName (pathBytes s.toHb) = some (fit name 8 ++ fit ext 3) := by
    rw [encodeName_eq_some_iff, hfinal, hsplit]
    exact ⟨hascii, hname, rfl⟩
  refine ⟨arrayOf 11 (fit name 8 ++ fit ext 3), exec_of_committed (i := .encfn) ⟨hlen, _, henc, rfl⟩,
    fun k hk => ?_, fun k hk => ?_⟩
  · rw [arrayOf_getElem, List.getD_append _ _ _ _ (by simpa using hk), fit_getD_toNat name hk]
  · rw [arrayOf_getElem, List.getD_append_right _ _ _ _ (by simp), fit_length, Nat.add_sub_cancel_left,
      fit_getD_toNat ext hk]

/-- A component that is not ASCII, is empty, or has its last dot first has no encoding. -/
theorem encodeName_eq_none {p comp : List Byte} (hp : finalComponent p = comp)
    (h : (∃ b ∈ comp, 0x80 ≤ b.toNat) ∨ comp = [] ∨ ∃ ext, comp = 0x2E :: ext ∧ 0x2E ∉ ext) :
    encodeName p = none := by
  rw [Option.eq_none_iff_forall_ne_some]
  intro r hr
  obtain ⟨hascii, hname, -⟩ := (encodeName_eq_some_iff p r).1 hr
  rw [hp] at hascii hname
  rcases h with ⟨b, hb, h80⟩ | rfl | ⟨ext, rfl, hext⟩
  · exact absurd (hascii b hb) (Nat.not_lt.2 h80)
  · exact hname rfl
  · have hsplit : splitName (0x2E :: ext) = ([], ext) := splitName_of_parts (.inl ⟨rfl, hext⟩)
    rw [hsplit] at hname
    exact hname rfl

/-- Settles O16: the length check comes first, then the encoder has no name to give. -/
theorem encfnErrors : Obligations.EncfnErrors := by
  refine fun s => ⟨exec_encfn_range, fun dir comp hlen hpath hdir hcomp hbad => ?_⟩
  refine exec_encfn_invalid hlen (encodeName_eq_none ?_ hbad)
  rw [pathBytes, hpath, finalComponent_of_parts hdir hcomp]

end Sys2Proof.Machine

/-!
The other commands' results and errors: NOP and SRESET (44_control.md), CSUMBLK and CSUMRNG (41_checksum.md R87, R88),
SEGMENT and GETBLK (42_segmenter.md R95 to R97, R99), BUILDHDR (43_header_builder.md R105).
-/

namespace Sys2Proof.Machine

/-! ### NOP and SRESET -/

/-- Settles O13: NOP's completion is a success that commits nothing. -/
theorem nopOnlySetsErrOk : Obligations.NopOnlySetsErrOk := fun _ => exec_of_committed (i := .nop) rfl

/-- Settles O14: SRESET commits the reset values, which a success leaves as they are. -/
theorem sresetRestoresResetValues : Obligations.SresetRestoresResetValues :=
  fun _ => exec_of_committed (i := .sreset) rfl

/-! ### The checksum commands -/

theorem checksum_eq_ofNat_sum (l : List Byte) : checksum l = BitVec.ofNat 8 (l.map BitVec.toNat).sum :=
  BitVec.eq_of_toNat_eq (checksum_toNat l)

/-- Settles O19: CSUMBLK commits the checksum of BLOCK, or fails its one check. -/
theorem csumblkSumsTheBlock : Obligations.CsumblkSumsTheBlock := by
  refine fun s => ⟨fun hv => ?_, exec_csumblk_sequence⟩
  rw [← checksum_eq_ofNat_sum]
  exact exec_of_committed (i := .csumblk) ⟨hv, rfl⟩

/-- Where every read that fails gives the one fault `e`, and one fails, `gather` gives it. -/
theorem gather_eq_error {f : Nat → Except Fault Byte} {a n k : Nat} {e : Fault}
    (hall : ∀ j, j < n → ∀ e', f (a + j) = .error e' → e' = e) (hk : k < n) (hf : f (a + k) = .error e) :
    gather f a n = .error e := by
  cases hg : gather f a n with
  | error e' =>
    obtain ⟨j, hj, hfj⟩ := gather_error hg
    rw [hall j hj e' hfj]
  | ok bs =>
    obtain ⟨rfl, hbs⟩ := (gather_ok_iff f a n bs).1 hg
    cases (hbs k hk).symm.trans hf

/-- Inside DMEM the engine's read has one fault. -/
theorem memRead_error {m : Memory} {a : Nat} {e : Fault} (ha : a < 8388480) (h : memRead m a = .error e) :
    e = .unwrittenDmemByte := by
  cases hl : Memory.lookup m a with
  | none =>
    rw [memRead_unwritten ha hl] at h
    cases h
    rfl
  | some b => cases ((memRead_ok_iff m a b).2 ⟨ha, hl⟩).symm.trans h

/-- Settles O20: the range check, then the reads, which fail only at an unwritten byte. -/
theorem csumrngSumsTheRange : Obligations.CsumrngSumsTheRange := by
  refine fun s => ⟨fun bytes hr hlen hw => ?_, exec_csumrng_range, ?_⟩
  · have hg : gather (memRead s.dmem) s.rbase.toNat s.rlen.toNat = .ok bytes := by
      rw [gather_ok_iff]
      exact ⟨hlen, fun k hk => (memRead_ok_iff _ _ _).2 ⟨show s.rbase.toNat + k < 8388480 by omega, hw k hk⟩⟩
    rw [← checksum_eq_ofNat_sum]
    exact exec_of_committed (i := .csumrng) ⟨hr, bytes, hg, rfl⟩
  · rintro hr ⟨k, hk, hu⟩
    have hread := memRead_unwritten (show s.rbase.toNat + k < 8388480 by omega) hu
    exact exec_csumrng_fault hr (gather_eq_error (fun j hj e => memRead_error (by omega)) hk hread)

/-! ### SEGMENT -/

theorem exec_segment_of_le {s : State} (h : s.dataLen.toNat ≤ 8388480) :
    exec .segment s = .next (finishOk (setCount (BitVec.ofNat 32 (blockCount s.dataLen.toNat)) s)) := by
  refine exec_of_committed (i := .segment) ⟨?_, rfl⟩
  rw [← Nat.not_lt, maxBlocks_lt_blockCount_iff]
  exact Nat.not_lt.2 h

theorem ofNat_blockCount_toNat {len : Nat} (h : len ≤ 8388480) :
    (BitVec.ofNat 32 (blockCount len)).toNat = (len + 127) / 128 :=
  Nat.mod_eq_of_lt (by rw [blockCount]; omega)

/-- Settles O22: CNT is the quotient rounded up, which fits its word. -/
theorem segmentCountsTheBlocks : Obligations.SegmentCountsTheBlocks := by
  refine fun s => ⟨fun h => ?_, fun h => exec_segment_tooLarge ((maxBlocks_lt_blockCount_iff _).2 h)⟩
  have hn := ofNat_blockCount_toNat h
  refine ⟨BitVec.ofNat 32 (blockCount s.dataLen.toNat), ?_, ?_, ?_, exec_segment_of_le h⟩
  all_goals
    rw [hn]
    omega

/-! ### GETBLK -/

/-- What stands in a segment: the DMEM bytes below the file's length, zero above it. -/
theorem segmentBytes_getElem {m : Memory} {len i : Nat} {bs : List Byte} (h : segmentBytes m len i = .ok bs)
    {k : Nat} (hk : k < bs.length) :
    (128 * i + k < len → Memory.lookup m (128 * i + k) = some bs[k]) ∧ (len ≤ 128 * i + k → bs[k] = 0x00) := by
  obtain ⟨-, hb⟩ := (gather_ok_iff _ _ _ _).1 h
  have hbk := hb k hk
  constructor
  · intro hlt
    rw [segmentByte_data hlt] at hbk
    exact ((memRead_ok_iff _ _ _).1 hbk).2
  · intro hge
    rw [segmentByte_padding hge] at hbk
    exact (Except.ok.inj hbk).symm

theorem segmentBytes_of_written {m : Memory} {len i : Nat}
    (h : bytesWritten m (128 * i) (min 128 (len - 128 * i))) : ∃ bs, segmentBytes m len i = .ok bs := by
  obtain ⟨bs, hb⟩ := gather_memRead_of_written h
  exact ⟨_, segmentBytes_of_data rfl hb⟩

/-- Settles O23: BLOCK is the segment's bytes, and an index below 65536 fits BLK_IDX. -/
theorem getblkLoadsTheSegment : Obligations.GetblkLoadsTheSegment := by
  intro s i hv hi h16 hw
  obtain ⟨bs, hb⟩ := segmentBytes_of_written hw
  have hlen : bs.length = 128 := gather_length hb
  refine ⟨arrayOf 128 bs, _, exec_of_committed (i := .getblk i) ⟨hv, hi, bs, hb, rfl⟩, Nat.mod_eq_of_lt h16,
    fun k hk => ?_⟩
  rw [arrayOf_getElem, List.getD_eq_getElem _ _ (hlen ▸ hk)]
  exact segmentBytes_getElem hb (hlen ▸ hk)

/-- Settles O24: the two checks in their order; with SEG_VALID = 1 the file fits DMEM, so a read fails only at an
unwritten byte. -/
theorem getblkErrors : Obligations.GetblkErrors := by
  refine fun s i => ⟨exec_getblk_sequence i, exec_getblk_range, ?_⟩
  rintro hs hv hi ⟨k, hk, hlt, hu⟩
  obtain ⟨hcnt, hmax⟩ := hs.segCount hv
  refine exec_getblk_fault hv hi (gather_eq_error (fun j _ e he => ?_) hk ?_)
  · by_cases hj : 128 * i + j < s.dataLen.toNat
    · rw [segmentByte_data hj] at he
      exact memRead_error (by omega) he
    · rw [segmentByte_padding (Nat.not_lt.1 hj)] at he
      cases he
  · rw [segmentByte_data hlt]
    exact memRead_unwritten (show 128 * i + k < 8388480 by omega) hu

/-- A command that reports OK has committed its writes. -/
theorem committed_of_err_ok {i : Instr} {s t : State} (h : exec i s = .next t) (ht : t.status.err = .ok) :
    ∃ u, Committed i s u ∧ t = finishOk u := by
  rcases exec_next_cases h with ⟨e, he, rfl⟩ | hu
  · exact absurd ht he
  · exact hu

/-- Settles O26: BLOCK and BLK_IDX are functions of DMEM, DATA_LEN and the index, and writing them again changes
nothing. -/
theorem getblkIsRestartable : Obligations.GetblkIsRestartable := by
  intro s t i h ht
  obtain ⟨u, ⟨hv, hi, bs, hb, rfl⟩, rfl⟩ := committed_of_err_ok h ht
  have hagain : Committed (.getblk i) (finishOk (setBlock (arrayOf 128 bs) (BitVec.ofNat 16 i) s)) _ :=
    ⟨hv, hi, bs, hb, rfl⟩
  refine ⟨(exec_of_committed hagain).trans rfl, fun s' t' hd hl h' ht' => ?_⟩
  obtain ⟨u', ⟨-, -, bs', hb', rfl⟩, rfl⟩ := committed_of_err_ok h' ht'
  rw [hd, hl, hb] at hb'
  cases hb'
  exact ⟨rfl, rfl⟩

/-! ### BUILDHDR -/

theorem arrayOf_headerBytes_marker (fname : Vector Byte 11) (n : Word) :
    (arrayOf 14 (headerBytes fname n))[0] = 0x01 := by
  rw [arrayOf_getElem]
  rfl

theorem arrayOf_headerBytes_name (fname : Vector Byte 11) (n : Word) {k : Nat} (hk : k < 11) :
    (arrayOf 14 (headerBytes fname n))[1 + k] = fname[k] := by
  have hlen : k < fname.toList.length := by simpa using hk
  rw [arrayOf_getElem, headerBytes, List.append_assoc, List.getD_append_right _ _ _ _ (by simp),
    List.getD_append _ _ _ _ (by simpa using hk)]
  simp [hk]

/-- Settles O29: the marker, FNAME and the two count bytes stand where the header's sequence puts them. -/
theorem buildhdrAssemblesTheHeader : Obligations.BuildhdrAssemblesTheHeader := by
  intro s hv hc
  have hlow := arrayOf_headerBytes_count s.fname s.cnt (k := 0) (by decide)
  have hhigh := arrayOf_headerBytes_count s.fname s.cnt (k := 1) (by decide)
  have hcount := le16_toNat s.cnt
  refine ⟨arrayOf 14 (headerBytes s.fname s.cnt), exec_of_committed (i := .buildhdr) ⟨hv, hc, rfl⟩,
    arrayOf_headerBytes_marker _ _, fun k hk => arrayOf_headerBytes_name _ _ hk, ?_, ?_⟩
  · rw [hlow]
    omega
  · rw [hhigh]
    omega

/-- Settles O30: the two checks in their order. -/
theorem buildhdrErrors : Obligations.BuildhdrErrors := fun _ => ⟨exec_buildhdr_sequence, exec_buildhdr_count⟩

/-- Settles O32: with SEG_VALID = 1 CNT is at most 65535, so only FN_VALID can be wanting. -/
theorem segmentSuccessRulesOutInvalidBlockCount : Obligations.SegmentSuccessRulesOutInvalidBlockCount := by
  intro s hs hv
  obtain ⟨-, hc⟩ := hs.segCount hv
  cases hf : s.status.fnValid with
  | false => exact ⟨_, exec_buildhdr_sequence hf, by simp, by simp⟩
  | true => exact ⟨_, exec_of_committed (i := .buildhdr) ⟨hf, hc, rfl⟩, by simp, by simp⟩

/-- Settles O25: no data makes no block, so no index is below CNT and the header counts none. -/
theorem zeroLengthFileHasNoSegment : Obligations.ZeroLengthFileHasNoSegment := by
  intro s h0
  have hlen : s.dataLen.toNat = 0 := by rw [h0]; rfl
  have hcnt : BitVec.ofNat 32 (blockCount s.dataLen.toNat) = 0 := by rw [hlen]; rfl
  have hseg := exec_segment_of_le (s := s) (by omega)
  rw [hcnt] at hseg
  refine ⟨_, hseg, rfl, rfl, fun i => exec_getblk_range rfl (Nat.zero_le i), fun hv => ?_⟩
  refine ⟨_, exec_of_committed (i := .buildhdr) ⟨hv, Nat.zero_le _, rfl⟩, rfl, ?_, ?_⟩
  · exact arrayOf_headerBytes_count s.fname 0 (k := 0) (by decide)
  · exact arrayOf_headerBytes_count s.fname 0 (k := 1) (by decide)

/-! ### The frame -/

/-- A part of a run of bytes is the run of that part. -/
theorem gather_slice {f : Nat → Except Fault Byte} {a n p q : Nat} {bs : List Byte} (h : gather f a n = .ok bs)
    (hpq : p + q ≤ n) : gather f (a + p) q = .ok ((bs.drop p).take q) := by
  obtain ⟨rfl, hb⟩ := (gather_ok_iff f a n bs).1 h
  rw [gather_ok_iff]
  refine ⟨by simp; omega, fun k hk => ?_⟩
  have hk' : p + k < bs.length := by
    simp at hk
    omega
  rw [List.getElem_take, List.getElem_drop, Nat.add_assoc]
  exact hb (p + k) hk'

/-- The padded bytes of a written file can all be read. -/
theorem gather_segmentByte_of_written {m : Memory} {len : Nat} (n : Nat) (h : bytesWritten m 0 len) :
    ∃ bs, gather (segmentByte m len) 0 n = .ok bs := by
  refine gather_total fun k _ => ?_
  rw [Nat.zero_add]
  by_cases hk : k < len
  · obtain ⟨ha, hw⟩ := h k hk
    rw [Nat.zero_add] at ha hw
    obtain ⟨b, hb⟩ := Option.isSome_iff_exists.1 hw
    exact ⟨b, (segmentByte_data hk).trans ((memRead_ok_iff m k b).2 ⟨ha, hb⟩)⟩
  · exact ⟨0x00, segmentByte_padding (Nat.not_lt.1 hk)⟩

theorem frame_of_gather {h : Hb} {body : List Byte}
    (hb : gather (segmentByte h.dmem h.dataLen.toNat) 0 (128 * h.cnt.toNat) = .ok body) :
    frame h = .ok (h.header.toList ++ body) := by
  rw [frame, frameBody_eq_gather, Nat.mul_zero, hb]

/-- Settles O28: the frame's body is one run of the padded file's bytes, and each segment that GETBLK loads is its
part of that run. -/
theorem frameIsHeaderThenBlocks : Obligations.FrameIsHeaderThenBlocks := by
  intro s hs hh hv hw
  obtain ⟨body, hbody⟩ := gather_segmentByte_of_written (128 * s.cnt.toNat) hw
  have hlen : body.length = 128 * s.cnt.toNat := gather_length hbody
  have hheader : s.header.toList.length = 14 := Vector.length_toList
  refine ⟨_, frame_of_gather hbody, ?_, ?_, List.take_left' hheader, fun i hi => ?_⟩
  · rw [List.length_append, hlen, hheader]
  · rw [List.getElem?_append_left (by omega), ← hs.headerMarker hh]
    simp
  · have hseg : segmentBytes s.dmem s.dataLen.toNat i = .ok ((body.drop (128 * i)).take 128) := by
      have hslice := gather_slice (p := 128 * i) (q := 128) hbody (by omega)
      rwa [Nat.zero_add] at hslice
    refine ⟨_, exec_of_committed (i := .getblk i) ⟨hv, hi, _, hseg, rfl⟩, rfl, fun k hk => ?_⟩
    have hkb : 128 * i + k < body.length := by omega
    rw [finishOk_block, setBlock_block, arrayOf_getElem, List.getElem?_append_right (by omega), hheader]
    simp [hk, Nat.add_assoc, hkb]

end Sys2Proof.Machine

/-!
What every command leaves alone (30_encoding.md R66, 20_memory.md R56), what it depends on (10_state.md R22), and the
STATUS a success leaves (60_exceptions.md R112).
-/

namespace Sys2Proof.Machine

/-- Settles O34: a success leaves STATUS as `statusOfSuccess` has it, and no command in flight. -/
theorem successfulCommandKeepsErrSeen : Obligations.SuccessfulCommandKeepsErrSeen := by
  intro i s t h ht
  obtain ⟨u, hu, rfl⟩ := committed_of_err_ok h ht
  refine ⟨busy_of_latched_none rfl, by rw [ht]; rfl, ?_⟩
  rw [finishOk_status_of_committed hu]
  cases i <;> simp [statusOfSuccess]

theorem committed_dmem {i : Instr} {s u : State} (h : Committed i s u) : u.dmem = s.dmem := by
  cases i <;> simp only [Committed] at h
  case nop => rw [h]
  case sreset => rw [h, softReset_dmem]
  case encfn => obtain ⟨-, r, -, rfl⟩ := h; rfl
  case csumblk => obtain ⟨-, rfl⟩ := h; rfl
  case csumrng => obtain ⟨-, bs, -, rfl⟩ := h; rfl
  case segment => obtain ⟨-, rfl⟩ := h; rfl
  case getblk => obtain ⟨-, -, bs, -, rfl⟩ := h; rfl
  case buildhdr => obtain ⟨-, -, rfl⟩ := h; rfl

theorem exec_dmem {i : Instr} {s t : State} (h : exec i s = .next t) : t.dmem = s.dmem := by
  rcases exec_next_cases h with ⟨e, -, rfl⟩ | ⟨u, hu, rfl⟩
  · rfl
  · exact (finishOk_dmem u).trans (committed_dmem hu)

/-- Settles O39: neither an error nor a command's writes touch DMEM. -/
theorem noCommandWritesDmem : Obligations.NoCommandWritesDmem :=
  fun _ _ _ h => ⟨exec_dmem h, fun _ => by rw [exec_dmem h]⟩

/-- Settles O38: an error leaves all but STATUS and LATCHED, and a success all but the one write of its command. -/
theorem eachCommandWritesOnlyItsResults : Obligations.EachCommandWritesOnlyItsResults := by
  intro i s t h hi
  rcases exec_next_cases h with ⟨e, -, rfl⟩ | ⟨u, hu, rfl⟩
  · simp
  · cases i <;> simp only [Committed] at hu
    case nop => subst hu; simp
    case sreset => exact absurd rfl hi
    case encfn => obtain ⟨-, r, -, rfl⟩ := hu; simp
    case csumblk => obtain ⟨-, rfl⟩ := hu; simp
    case csumrng => obtain ⟨-, bs, -, rfl⟩ := hu; simp
    case segment => obtain ⟨-, rfl⟩ := hu; simp
    case getblk => obtain ⟨-, -, bs, -, rfl⟩ := hu; simp
    case buildhdr => obtain ⟨-, -, rfl⟩ := hu; simp

/-! ### The outcome depends on HB's record alone -/

/-- The outside world's side of one state around the record of another. -/
def withHb (s' t : State) : State := { s' with toHb := t.toHb }

theorem committed_withHb {i : Instr} {s u : State} (s' : State) (h : Committed i s u) :
    Committed i (withHb s' s) (withHb s' u) := by
  cases i <;> simp only [Committed] at h ⊢
  case nop => rw [h]
  case sreset => rw [h]; rfl
  case encfn => obtain ⟨hl, r, hr, rfl⟩ := h; exact ⟨hl, r, hr, rfl⟩
  case csumblk => obtain ⟨hv, rfl⟩ := h; exact ⟨hv, rfl⟩
  case csumrng => obtain ⟨hr, bs, hb, rfl⟩ := h; exact ⟨hr, bs, hb, rfl⟩
  case segment => obtain ⟨hc, rfl⟩ := h; exact ⟨hc, rfl⟩
  case getblk => obtain ⟨hv, hn, bs, hb, rfl⟩ := h; exact ⟨hv, hn, bs, hb, rfl⟩
  case buildhdr => obtain ⟨hv, hc, rfl⟩ := h; exact ⟨hv, hc, rfl⟩

/-- A command commits its writes, or raises one error, or faults with one fault, whatever stands around the record. -/
theorem exec_outcome (i : Instr) (s : State) :
    (∃ u, Committed i s u) ∨ (∃ e, ∀ s', exec i (withHb s' s) = .next (finishErr e (withHb s' s))) ∨
      ∃ f, ∀ s', exec i (withHb s' s) = .fault f := by
  cases i with
  | nop => exact .inl ⟨s, rfl⟩
  | sreset => exact .inl ⟨softReset s, rfl⟩
  | encfn =>
    by_cases hl : s.pathLen.toNat ≤ 256
    · cases hn : encodeName (pathBytes s.toHb) with
      | none => exact .inr (.inl ⟨_, fun _ => exec_encfn_invalid hl hn⟩)
      | some r => exact .inl ⟨_, hl, r, hn, rfl⟩
    · exact .inr (.inl ⟨_, fun _ => exec_encfn_range (Nat.not_le.1 hl)⟩)
  | csumblk =>
    cases hv : s.status.blkValid with
    | false => exact .inr (.inl ⟨_, fun _ => exec_csumblk_sequence hv⟩)
    | true => exact .inl ⟨_, hv, rfl⟩
  | csumrng =>
    by_cases hr : s.rbase.toNat + s.rlen.toNat ≤ Config.dmemSize
    · cases hb : gather (memRead s.dmem) s.rbase.toNat s.rlen.toNat with
      | error f => exact .inr (.inr ⟨f, fun _ => exec_csumrng_fault hr hb⟩)
      | ok bs => exact .inl ⟨_, hr, bs, hb, rfl⟩
    · exact .inr (.inl ⟨_, fun _ => exec_csumrng_range (Nat.not_le.1 hr)⟩)
  | segment =>
    by_cases hc : blockCount s.dataLen.toNat ≤ 65535
    · exact .inl ⟨_, hc, rfl⟩
    · exact .inr (.inl ⟨_, fun _ => exec_segment_tooLarge (Nat.not_le.1 hc)⟩)
  | getblk n =>
    cases hv : s.status.segValid with
    | false => exact .inr (.inl ⟨_, fun _ => exec_getblk_sequence n hv⟩)
    | true =>
      by_cases hn : n < s.cnt.toNat
      · cases hb : segmentBytes s.dmem s.dataLen.toNat n with
        | error f => exact .inr (.inr ⟨f, fun _ => exec_getblk_fault hv hn hb⟩)
        | ok bs => exact .inl ⟨_, hv, hn, bs, hb, rfl⟩
      · exact .inr (.inl ⟨_, fun _ => exec_getblk_range hv (Nat.not_lt.1 hn)⟩)
  | buildhdr =>
    cases hv : s.status.fnValid with
    | false => exact .inr (.inl ⟨_, fun _ => exec_buildhdr_sequence hv⟩)
    | true =>
      by_cases hc : s.cnt.toNat ≤ 65535
      · exact .inl ⟨_, hv, hc, rfl⟩
      · exact .inr (.inl ⟨_, fun _ => exec_buildhdr_count hv (Nat.not_le.1 hc)⟩)

theorem exec_withHb (i : Instr) (s s' : State) : exec i (withHb s' s) = onNext (withHb s') (exec i s) := by
  rcases exec_outcome i s with ⟨u, hu⟩ | ⟨e, he⟩ | ⟨f, hf⟩
  · rw [exec_of_committed hu, exec_of_committed (committed_withHb s' hu)]
    rfl
  · have hs : exec i s = .next (finishErr e s) := he s
    rw [he s', hs]
    rfl
  · have hs : exec i s = .fault f := hf s
    rw [hf s', hs]
    rfl

theorem exec_not_refused (i : Instr) (s : State) (r : Refusal) : exec i s ≠ .refused r := by
  intro h
  rcases exec_outcome i s with ⟨u, hu⟩ | ⟨e, he⟩ | ⟨f, hf⟩
  · cases (exec_of_committed hu).symm.trans h
  · cases (he s).symm.trans h
  · cases (hf s).symm.trans h

/-- Settles O40: `exec_withHb` for the two states, which differ in the outside world's side only. -/
theorem outcomeDependsOnHbAlone : Obligations.OutcomeDependsOnHbAlone := by
  intro i s s' hb
  have hs' : withHb s' s = s' := by rw [withHb, ← hb]
  have hx := exec_withHb i s s'
  rw [hs'] at hx
  refine ⟨fun t h => ?_, fun f h => ?_, exec_not_refused i s⟩
  · rw [hx, h]
    rfl
  · rw [hx, h]
    rfl

end Sys2Proof.Machine

/-!
The step (10_state.md R18): what starts and ends a command, what shows of HB while one is in flight (R25, R55), what
changes ERR (R26), SEG_VALID (R39) and DMEM (R42), and a polled command's completion (70_reset_and_hazards.md R140).
-/

namespace Sys2Proof.Machine

/-! ### Whose turn it is -/

theorem step_move {s : State} {m : Move} {ms : List Move} (hl : s.latched = none) (hm : s.moves = m :: ms) :
    step s = performMove m { s with moves := ms } := by
  rw [step_idle hl, worldStep, hm]

/-- While a command's latency is not used up the outside world moves, and one of it goes. -/
theorem step_waiting_move {s : State} {w : Word} {k : Nat} {rest : List Nat} {m : Move} {ms : List Move}
    (hl : s.latched = some w) (hk : s.latency = (k + 1) :: rest) (hm : s.moves = m :: ms) :
    step s = performMove m { s with latency := k :: rest, moves := ms } := by
  rw [step_waiting hl hk]
  simp only [worldStep, hm]

/-- Settles O7: the engine's completion is the decoded command's, or an IllegalCommand. -/
theorem stepRunsTheDecodedCommand : Obligations.StepRunsTheDecodedCommand := by
  intro s w hl hd
  have hs : step s = onNext afterCompletion (execWord w s) := step_completes ⟨hl, hd⟩
  constructor
  · intro i hi
    rw [hs, execWord_instr hi]
    cases exec i s <;> rfl
  · intro r hr
    rw [hs, execWord_illegal hr]
    rfl

/-- Settles O8: the CMD write is the idle machine's next move, and it is admitted. -/
theorem cmdWriteStartsTheCommand : Obligations.CmdWriteStartsTheCommand := by
  intro s w ms hl hp hm
  refine ⟨?_, rfl⟩
  rw [step_move hl hm]
  exact hostWrite_admitted w hp rfl hl

/-- Settles O12: with no command in flight and no move left the outside world's turn does nothing. -/
theorem endedRunStaysAsItIs : Obligations.EndedRunStaysAsItIs := by
  rintro s ⟨hm, hb⟩
  rw [step_idle ((busy_eq_false_iff _).1 hb), worldStep, hm]

/-! ### LATCHED and the whole record over one move -/

theorem writeReg_latched {loc : RegLoc} (h : loc ≠ .cmd) (v : Word) (s : State) :
    (writeReg loc v s).latched = s.latched := by
  cases loc <;> simp_all [writeReg]

/-- Only a CMD write puts a command in flight. -/
theorem latched_of_performed {m : Move} {s t : State} (h : Performed m s t) (hl : s.latched = none) :
    t.latched = none ∨ ∃ v, m = .wr 0x000 v ∧ s.resetPin = false ∧ t.latched = some v := by
  cases m with
  | wr off v =>
    obtain ⟨hp, -, -, rfl⟩ := h
    by_cases hc : regLoc off = .cmd
    · obtain rfl := (regLoc_eq_cmd_iff off).1 hc
      exact .inr ⟨v, rfl, hp, rfl⟩
    · exact .inl ((writeReg_latched hc v s).trans hl)
  | rd off => obtain ⟨-, -, rfl⟩ := h; exact .inl hl
  | wrb a b => obtain ⟨-, -, ⟨-, rfl⟩ | ⟨-, rfl⟩⟩ := h <;> exact .inl hl
  | rdb a => obtain ⟨-, rfl⟩ := h; exact .inl hl
  | poll => obtain ⟨-, rfl⟩ := h; exact .inl hl
  | narrow off => exact h.elim
  | powerOn => obtain rfl := h; exact .inl rfl
  | resetAssert => obtain rfl := h; exact .inl rfl
  | resetRelease => obtain rfl := h; exact .inl hl

/-- While a command is in flight a move that is no hardware reset leaves the record alone: writes are refused. -/
theorem toHb_of_performed_busy {m : Move} {s t : State} {w : Word} (h : Performed m s t) (hl : s.latched = some w)
    (hm : m.isReset = false) : t.toHb = s.toHb := by
  cases m with
  | wr off v => obtain ⟨-, -, hn, -⟩ := h; cases hl.symm.trans hn
  | rd off => obtain ⟨-, -, rfl⟩ := h; rfl
  | wrb a b => obtain ⟨-, hn, -⟩ := h; cases hl.symm.trans hn
  | rdb a => obtain ⟨-, rfl⟩ := h; rfl
  | poll => obtain ⟨-, rfl⟩ := h; rfl
  | narrow off => exact h.elim
  | powerOn => cases hm
  | resetAssert => cases hm
  | resetRelease => obtain rfl := h; rfl

theorem resetsNext_of_isReset {s u : State} {m : Move} {ms : List Move} (hturn : WorldTurn s u)
    (hm : u.moves = m :: ms) (hr : m.isReset = true) : resetsNext s := by
  obtain ⟨-, hmoves, -⟩ := worldTurn_toHb hturn
  exact ⟨idle_or_waiting_of_worldTurn hturn, m, ms, hmoves ▸ hm, hr⟩

/-- A command in flight that neither completes nor is reset leaves the record as it was. -/
theorem toHb_of_step_waiting {s t : State} {w : Word} (h : step s = .next t) (hl : s.latched = some w)
    (hw : ¬ ∃ w, completesWord s w) (hr : ¬ resetsNext s) : t.toHb = s.toHb := by
  rcases step_next_cases h with ⟨w, u, hc, -, -⟩ | ⟨u, hturn, ⟨-, rfl⟩ | ⟨m, ms, hm, hp⟩⟩
  · exact absurd ⟨w, hc⟩ hw
  · exact (worldTurn_toHb hturn).1
  · obtain ⟨hhb, -, -⟩ := worldTurn_toHb hturn
    have hm : m.isReset = false := Bool.eq_false_iff.2 fun h => hr (resetsNext_of_isReset hturn hm h)
    exact (toHb_of_performed_busy hp (w := w) (by rw [hhb, hl]) hm).trans hhb

/-- Settles O10: the words a host reads are functions of the record. -/
theorem nothingOfACommandShowsBeforeCompletion : Obligations.NothingOfACommandShowsBeforeCompletion := by
  intro s t h hb hw hr
  obtain ⟨w, hl⟩ := Option.isSome_iff_exists.1 hb
  have hhb := toHb_of_step_waiting h hl hw hr
  exact ⟨hhb, fun loc => by rw [hhb]⟩

/-- Settles O9: an idle machine is set busy by a CMD write alone, and a busy one stays so but for a completion or a
hardware reset. -/
theorem busyFollowsCommandStartAndEnd : Obligations.BusyFollowsCommandStartAndEnd := by
  intro s t h
  constructor
  · intro hs ht
    have hl := (busy_eq_false_iff _).1 hs
    rcases step_next_cases h with ⟨w, u, ⟨hw, -⟩, -, -⟩ | ⟨u, hturn, hcases⟩
    · cases hl.symm.trans hw
    · rcases hturn with ⟨-, rfl⟩ | ⟨w, k, rest, hw, -, -⟩
      · rcases hcases with ⟨-, rfl⟩ | ⟨m, ms, hm, hp⟩
        · cases hs.symm.trans ht
        · rcases latched_of_performed hp hl with hn | ⟨v, rfl, hpin, hv⟩
          · cases (busy_of_latched_none hn).symm.trans ht
          · exact ⟨v, ⟨hl, hpin, ms, hm⟩, hv⟩
      · cases hl.symm.trans hw
  · intro hs ht
    obtain ⟨w, hl⟩ := Option.isSome_iff_exists.1 hs
    by_contra hn
    obtain ⟨hw, hr⟩ := not_or.1 hn
    rw [toHb_of_step_waiting h hl hw hr, hs] at ht
    cases ht

/-- A poll whose command still waits reads BUSY = 1, stands again, and uses up one of the latency. -/
theorem step_poll_waiting {s : State} {w : Word} {k : Nat} {rest : List Nat} {ms : List Move}
    (hl : s.latched = some w) (hk : s.latency = (k + 1) :: rest) (hp : s.resetPin = false)
    (hm : s.moves = .poll :: ms) :
    step s = .next { s with latency := k :: rest, seen := .reg 0x004 (statusWord s.toHb) :: s.seen } := by
  rw [step_waiting_move hl hk hm]
  simp [performMove, hostPoll, hp, busy, hl, observe, hm]

/-- Settles O11, by induction on the latency: each poll uses up one of it (`step_poll_waiting`). -/
theorem polledCommandCompletes : Obligations.PolledCommandCompletes := by
  intro k
  induction k with
  | zero =>
    intro s w rest ms hl hk hp hm
    rw [run_one, step_completes ⟨hl, by simp [engineDue, hk]⟩, ← hk]
    rfl
  | succ k ih =>
    intro s w rest ms hl hk hp hm
    have hrest := ih { s with latency := k :: rest, seen := .reg 0x004 (statusWord s.toHb) :: s.seen }
      w rest ms hl rfl hp hm
    refine (run_succ_next (step_poll_waiting hl hk hp hm)).trans (hrest.trans ?_)
    rw [List.replicate_succ', List.append_assoc]
    rfl

/-! ### Which step changes what -/

/-- Settles O36: of the five ways a step leaves STATUS, only a completion or a hardware reset changes ERR. -/
theorem errChangesOnlyAtCompletionOrReset : Obligations.ErrChangesOnlyAtCompletionOrReset := by
  intro s t h hne
  have hs := statusStep_of_step h
  generalize t.status = st at hs hne
  cases hs with
  | failed hw _ _ => exact .inl ⟨_, hw⟩
  | succeeded hw _ => exact .inl ⟨_, hw⟩
  | reset hr => exact .inr hr
  | lengthWritten _ => exact absurd rfl hne
  | kept _ _ _ => exact absurd rfl hne

/-- Settles O42: the two writes are admitted, GETBLK's first check refuses, and the step that sets SEG_VALID is
SEGMENT's (`validFlagsAreSetAndClearedByTheirEvents`). -/
theorem lengthOrCountWriteClearsSegValid : Obligations.LengthOrCountWriteClearsSegValid := by
  refine ⟨fun s v hp hl => ?_, fun s n hv => ?_, fun s t h h0 h1 => ?_⟩
  · exact ⟨hostWrite_admitted v hp rfl hl, hostWrite_admitted v hp rfl hl⟩
  · exact ⟨_, exec_getblk_sequence n hv, rfl, rfl⟩
  · obtain ⟨-, -, hseg, -⟩ := validFlagsAreSetAndClearedByTheirEvents s t h
    exact (hseg h0 h1).1

/-- A move changes DMEM by a byte write or power-on alone. -/
theorem dmem_of_performed {m : Move} {s t : State} (h : Performed m s t) :
    t.dmem = s.dmem ∨
      (∃ a b, m = .wrb a b ∧ s.latched = none ∧ t.dmem = Memory.store s.dmem a.toNat b) ∨
      m = .powerOn ∧ t.dmem = [] := by
  cases m with
  | wr off v =>
    obtain ⟨-, -, -, rfl⟩ := h
    exact .inl (writeReg_rest (regLoc off) v s).1
  | rd off => obtain ⟨-, -, rfl⟩ := h; exact .inl rfl
  | wrb a b =>
    obtain ⟨-, hl, ⟨-, rfl⟩ | ⟨-, rfl⟩⟩ := h
    · exact .inr (.inl ⟨a, b, rfl, hl, rfl⟩)
    · exact .inl rfl
  | rdb a => obtain ⟨-, rfl⟩ := h; exact .inl rfl
  | poll => obtain ⟨-, rfl⟩ := h; exact .inl rfl
  | narrow off => exact h.elim
  | powerOn => obtain rfl := h; exact .inr (.inr ⟨rfl, rfl⟩)
  | resetAssert => obtain rfl := h; exact .inl (by rw [resetAssert_toHb])
  | resetRelease => obtain rfl := h; exact .inl rfl

theorem execWord_dmem {w : Word} {s u : State} (h : execWord w s = .next u) : u.dmem = s.dmem := by
  rcases execWord_next h with ⟨i, -, hx⟩ | ⟨r, -, rfl⟩
  · exact exec_dmem hx
  · rfl

/-- Settles O43: no completion writes DMEM, and of the moves a byte write and power-on alone. -/
theorem dmemChangesOnlyByHostWriteOrPowerOn : Obligations.DmemChangesOnlyByHostWriteOrPowerOn := by
  intro s t h hne
  rcases step_next_cases h with ⟨w, u, -, hu, rfl⟩ | ⟨u, hturn, hcases⟩
  · exact absurd (execWord_dmem hu) hne
  · obtain ⟨hhb, hmoves, -⟩ := worldTurn_toHb hturn
    rw [← hhb] at hne ⊢
    rw [← hmoves]
    rcases hcases with ⟨-, rfl⟩ | ⟨m, ms, hm, hp⟩
    · exact absurd rfl hne
    · rcases dmem_of_performed hp with hd | ⟨a, b, rfl, hl, hd⟩ | ⟨rfl, hd⟩
      · exact absurd hd hne
      · exact .inl ⟨a, b, ms, hm, hl, hd⟩
      · exact .inr ⟨⟨ms, hm⟩, hd⟩

end Sys2Proof.Machine

/-!
The words the host sees: STATUS (10_state.md R24), the windows (20_memory.md R49), and where the REG offsets of R48
stand.
-/

namespace Sys2Proof.Machine

/-! ### STATUS -/

theorem toNat_append_eq_mul_add {m n : Nat} (x : BitVec m) (y : BitVec n) :
    (x ++ y).toNat = x.toNat * 2 ^ n + y.toNat := by
  rw [BitVec.toNat_append, ← Nat.shiftLeft_add_eq_or_of_lt y.isLt, Nat.shiftLeft_eq]

/-- Settles O44: each field weighs two to the width of what stands below it. -/
theorem statusWordLayout : Obligations.StatusWordLayout := by
  refine ⟨fun h => ?_, rfl, rfl, rfl, rfl, rfl, rfl, rfl⟩
  simp only [statusWord, toNat_append_eq_mul_add, BitVec.toNat_ofBool, BitVec.toNat_ofNat]
  omega

/-- Settles O51: the reset values written out. -/
theorem resetValues : Obligations.ResetValues :=
  ⟨by decide, rfl, rfl, rfl, rfl, rfl, rfl, rfl, rfl, rfl, rfl, rfl, rfl, fun _ => rfl⟩

/-! ### The windows -/

theorem windowWord_toNat {n : Nat} (x : Vector Byte n) (k : Nat) :
    (windowWord x k).toNat =
      (windowByte x (4 * k)).toNat + 256 * (windowByte x (4 * k + 1)).toNat +
        65536 * (windowByte x (4 * k + 2)).toNat + 16777216 * (windowByte x (4 * k + 3)).toNat :=
  toNat_append4 _ _ _ _

/-- The bytes of a word written are its bits, lowest first. -/
theorem windowByte_windowWrite {n : Nat} (x : Vector Byte n) (w : Word) {k j : Nat} (hk : 4 * k + 3 < n)
    (hj : j < 4) : windowByte (windowWrite x k w) (4 * k + j) = w.extractLsb' (8 * j) 8 := by
  obtain rfl | rfl | rfl | rfl : j = 0 ∨ j = 1 ∨ j = 2 ∨ j = 3 := by omega
  all_goals
    rw [windowByte_lt _ (by omega)]
    simp [windowWrite]

theorem windowWord_windowWrite {n : Nat} (x : Vector Byte n) (w : Word) {k : Nat} (hk : 4 * k + 3 < n) :
    windowWord (windowWrite x k w) k = w := by
  have h0 : windowByte (windowWrite x k w) (4 * k) = w.extractLsb' 0 8 :=
    windowByte_windowWrite x w hk (j := 0) (by decide)
  apply BitVec.eq_of_toNat_eq
  rw [windowWord_toNat, h0, windowByte_windowWrite x w hk (j := 1) (by decide),
    windowByte_windowWrite x w hk (j := 2) (by decide), windowByte_windowWrite x w hk (j := 3) (by decide)]
  simp only [BitVec.extractLsb'_toNat, Nat.shiftRight_eq_div_pow]
  have := w.isLt
  omega

theorem windowWrite_getElem_of_ne {n : Nat} (x : Vector Byte n) (w : Word) {k j : Nat} (hj : j < n)
    (hne : j / 4 ≠ k) : (windowWrite x k w)[j] = x[j] := by
  rw [windowWrite, Vector.getElem_setIfInBounds_ne _ (by omega), Vector.getElem_setIfInBounds_ne _ (by omega),
    Vector.getElem_setIfInBounds_ne _ (by omega), Vector.getElem_setIfInBounds_ne _ (by omega)]

/-- Settles O45: a window's word is its four bytes, and a word written is the four bytes read. -/
theorem windowsPackLittleEndian : Obligations.WindowsPackLittleEndian :=
  ⟨fun _ x k => windowWord_toNat x k, fun x k w hk =>
    ⟨windowWord_windowWrite x w (by omega), fun _ hj hne => windowWrite_getElem_of_ne x w hj hne⟩⟩

/-! ### The address map -/

theorem regAligned_eq_true_iff (off : BitVec 12) : regAligned off = true ↔ off.toNat % 4 = 0 := by
  simp [regAligned]

section
variable {off : BitVec 12} {k : Nat}

theorem regLoc_path (hk : k < 64) (ho : off.toNat = 0x100 + 4 * k) : regLoc off = .path k := by
  rw [regLoc_window (by omega), windowLoc, if_pos (by omega), show (off.toNat - 0x100) / 4 = k by omega]

theorem regLoc_fname (hk : k < 3) (ho : off.toNat = 0x200 + 4 * k) : regLoc off = .fname k := by
  rw [regLoc_window (by omega), windowLoc, if_neg (by omega), if_pos (by omega),
    show (off.toNat - 0x200) / 4 = k by omega]

theorem regLoc_header (hk : k < 4) (ho : off.toNat = 0x210 + 4 * k) : regLoc off = .header k := by
  rw [regLoc_window (by omega), windowLoc, if_neg (by omega), if_neg (by omega), if_pos (by omega),
    show (off.toNat - 0x210) / 4 = k by omega]

theorem regLoc_block (hk : k < 32) (ho : off.toNat = 0x280 + 4 * k) : regLoc off = .block k := by
  rw [regLoc_window (by omega), windowLoc, if_neg (by omega), if_neg (by omega), if_neg (by omega),
    if_pos (by omega), show (off.toNat - 0x280) / 4 = k by omega]

end

theorem regLoc_unmapped {off : BitVec 12}
    (h : (0x024 ≤ off.toNat ∧ off.toNat ≤ 0x0FF) ∨ (0x20C ≤ off.toNat ∧ off.toNat ≤ 0x20F) ∨
      (0x220 ≤ off.toNat ∧ off.toNat ≤ 0x27F) ∨ 0x300 ≤ off.toNat) : regLoc off = .unmapped := by
  rw [regLoc_window (by omega), windowLoc, if_neg (by omega), if_neg (by omega), if_neg (by omega),
    if_neg (by omega)]

/-- Outside the PATH window the windows ignore writes (20_memory.md R51). -/
theorem writeReg_of_not_path {off : BitVec 12} (hlo : 0x24 ≤ off.toNat)
    (h : ¬ (0x100 ≤ off.toNat ∧ off.toNat ≤ 0x1FF)) (v : Word) (s : State) : writeReg (regLoc off) v s = s := by
  rw [regLoc_window hlo, windowLoc, if_neg h]
  split_ifs <;> rfl

end Sys2Proof.Machine

/-!
The host's accesses (20_memory.md R50 to R54), the hardware resets (70_reset_and_hazards.md R128 to R130) and the
host's duties (R133 to R135).
-/

namespace Sys2Proof.Machine

/-! ### REG writes -/

/-- What a write leaves at a read/write register or PATH word is what a read finds there. -/
theorem readReg_writeReg_of_writable {off : BitVec 12}
    (h : off = 0x008 ∨ off = 0x00C ∨ off = 0x010 ∨ off = 0x014 ∨ off = 0x018 ∨
      (0x100 ≤ off.toNat ∧ off.toNat ≤ 0x1FF ∧ off.toNat % 4 = 0)) (v : Word) (s : State) :
    regAligned off = true ∧ (0x100 ≤ off.toNat → regLoc off = .path ((off.toNat - 0x100) / 4)) ∧
      readReg (writeReg (regLoc off) v s).toHb (regLoc off) = v := by
  rcases h with rfl | rfl | rfl | rfl | rfl | ⟨hlo, hhi, ha⟩
  on_goal 6 =>
    have hloc : regLoc off = .path ((off.toNat - 0x100) / 4) := regLoc_path (by omega) (by omega)
    refine ⟨(regAligned_eq_true_iff off).2 ha, fun _ => hloc, ?_⟩
    rw [hloc]
    exact windowWord_windowWrite s.path v (by omega)
  all_goals exact ⟨rfl, fun hlo => absurd hlo (by decide), rfl⟩

/-- Settles O46: each write is admitted, and stores at its own location alone. -/
theorem writtenRegistersReadBack : Obligations.WrittenRegistersReadBack := by
  intro s off v hp hl hoff
  obtain ⟨ha, hpath, hread⟩ := readReg_writeReg_of_writable hoff v s
  refine ⟨_, hostWrite_admitted v hp ha hl, hread, ?_, ?_, ?_, fun hlo => ?_⟩
  · rintro rfl; rfl
  · rintro rfl; rfl
  · rintro rfl; rfl
  · rw [hpath hlo]; rfl

/-- Settles O47: read-only and unmapped locations ignore a write, and an unmapped one reads 0. -/
theorem readOnlyAndUnmappedWritesAreIgnored : Obligations.ReadOnlyAndUnmappedWritesAreIgnored := by
  intro s off v hp ha
  have ha := (regAligned_eq_true_iff off).2 ha
  refine ⟨fun hl hoff => ?_, fun hoff => ?_⟩
  · have hw : writeReg (regLoc off) v s = s := by
      rcases hoff with rfl | rfl | rfl | hoff | hoff
      · rfl
      · rfl
      · rfl
      · exact writeReg_of_not_path hoff.1 (by omega) v s
      · exact writeReg_of_not_path (by omega) (by omega) v s
    rw [hostWrite_admitted v hp ha hl, hw]
    rfl
  · rw [hostRead_admitted hp ha, regLoc_unmapped hoff]
    rfl

/-! ### REG reads -/

theorem hostReadByte_admitted {a : BitVec 23} {s : State} (hp : s.resetPin = false) :
    hostReadByte a s = .next (observe (.dmem a (dmemByte s.dmem s.draws a.toNat)) s) := by
  simp [hostReadByte, hp]

/-- Settles O48: a read keeps the value it returned and nothing else, so the next one finds the same. -/
theorem hostReadsHaveNoSideEffect : Obligations.HostReadsHaveNoSideEffect := by
  refine fun s t => ⟨fun off h => ?_, fun a h => ?_⟩
  · obtain ⟨hp, ha, rfl⟩ := hostRead_next h
    exact ⟨_, rfl, hostRead_admitted hp ha⟩
  · obtain ⟨hp, rfl⟩ := hostReadByte_next h
    exact ⟨_, rfl, hostReadByte_admitted hp⟩

theorem windowByte_eq_getD {n : Nat} (x : Vector Byte n) (j : Nat) : windowByte x j = x.toList.getD j 0 := by
  rw [windowByte, List.getD_eq_getElem?_getD, Vector.getElem?_toList]

theorem windowWord_wordOfBytes {n : Nat} (x : Vector Byte n) (k : Nat) :
    wordOfBytes x.toList k (windowWord x k) := by
  simp only [wordOfBytes, ← windowByte_eq_getD]
  exact windowWord_toNat x k

theorem hostRead_window {n : Nat} {x : Vector Byte n} {off : BitVec 12} {k : Nat} {s : State}
    (hp : s.resetPin = false) (ha : off.toNat % 4 = 0) (hx : readReg s.toHb (regLoc off) = windowWord x k) :
    ∃ v, hostRead off s = .next { s with seen := .reg off v :: s.seen } ∧ wordOfBytes x.toList k v := by
  refine ⟨_, ?_, windowWord_wordOfBytes x k⟩
  rw [hostRead_admitted hp ((regAligned_eq_true_iff off).2 ha), hx]
  rfl

/-- Settles O57: the address map at each register and each window's words. -/
theorem hostReadsReturnTheRegisterMap : Obligations.HostReadsReturnTheRegisterMap := by
  intro s hp
  have hreg {off : BitVec 12} (ha : regAligned off = true) := hostRead_admitted (off := off) hp ha
  refine ⟨hreg rfl, hreg rfl, hreg rfl, hreg rfl, hreg rfl, hreg rfl, hreg rfl,
    ⟨_, hreg rfl, ?_⟩, ⟨_, hreg rfl, ?_⟩, ?_, ?_, ?_, ?_⟩
  · exact BitVec.toNat_setWidth_of_le (by decide)
  · exact BitVec.toNat_setWidth_of_le (by decide)
  · exact fun off k hk ho => hostRead_window hp (by omega) (by rw [regLoc_path hk ho]; rfl)
  · exact fun off k hk ho => hostRead_window hp (by omega) (by rw [regLoc_fname hk ho]; rfl)
  · exact fun off k hk ho => hostRead_window hp (by omega) (by rw [regLoc_header hk ho]; rfl)
  · exact fun off k hk ho => hostRead_window hp (by omega) (by rw [regLoc_block hk ho]; rfl)

/-! ### DMEM accesses -/

theorem hostWriteByte_stored {a : BitVec 23} {s : State} (b : Byte) (hp : s.resetPin = false)
    (hl : s.latched = none) (ha : a.toNat < 8388480) :
    hostWriteByte a b s = .next (nextDraw { s with dmem := Memory.store s.dmem a.toNat b }) := by
  simp [hostWriteByte, hp, hl, ha]

theorem hostWriteByte_ignored {a : BitVec 23} {s : State} (b : Byte) (hp : s.resetPin = false)
    (hl : s.latched = none) (ha : 8388480 ≤ a.toNat) : hostWriteByte a b s = .next (nextDraw s) := by
  simp [hostWriteByte, hp, hl, Nat.not_lt.2 ha]

/-- Settles O49: a byte with storage is stored in DMEM's canonical form, and one without is ignored. -/
theorem hostByteWriteSetsOneByte : Obligations.HostByteWriteSetsOneByte := by
  refine fun s a b hp hl => ⟨fun ha => ?_, hostWriteByte_ignored b hp hl⟩
  exact ⟨_, hostWriteByte_stored b hp hl ha, lookup_store_self _ _ _, fun c hc => lookup_store_ne _ b hc,
    fun hm => wf_store b hm ha⟩

/-- Settles O50: the three cases of `dmemByte`. -/
theorem hostByteReadReturnsTheByte : Obligations.HostByteReadReturnsTheByte := by
  refine fun s a hp => ⟨_, hostReadByte_admitted hp, fun c ha hc => ?_, fun ha hn => ?_, fun ha => ?_⟩
  · simp [dmemByte, ha, hc]
  · simp [dmemByte, ha, hn]
  · simp [dmemByte, Nat.not_lt.2 ha]

/-! ### The hardware resets -/

@[simp] theorem abandon_moves (s : State) : (abandon s).moves = s.moves := by
  unfold abandon
  split <;> rfl

theorem abandon_latency {s : State} {w : Word} (hl : s.latched = some w) :
    (abandon s).latency = s.latency.tail := by
  rw [abandon, if_pos (busy_of_latched_some hl)]
  rfl

@[simp] theorem powerOn_moves (s : State) : (powerOn s).moves = s.moves := abandon_moves s

@[simp] theorem resetAssert_moves (s : State) : (resetAssert s).moves = s.moves := abandon_moves s

/-- Settles O52: each event is the idle machine's next move; the reset input leaves the record SRESET leaves. -/
theorem hardwareResetsGiveResetValues : Obligations.HardwareResetsGiveResetValues := by
  refine fun s ms hl => ⟨fun hm => ?_, fun hm => ?_, fun hm => ?_⟩
  · exact ⟨_, step_move hl hm, powerOn_toHb _, powerOn_moves _, fun _ => rfl⟩
  · exact ⟨_, _, step_move hl hm, resetAssert_toHb _, resetAssert_moves _, resetAssert_resetPin _,
      sresetRestoresResetValues s, (resetAssert_toHb { s with moves := ms }).symm⟩
  · exact ⟨_, step_move hl hm, rfl, rfl, fun h => endedRunStaysAsItIs _ ⟨h, busy_of_latched_none hl⟩⟩

/-- While a command waits its latency is not used up. -/
theorem latency_of_waiting {s : State} (h : s.latency.headD 0 ≠ 0) : ∃ k rest, s.latency = (k + 1) :: rest := by
  cases hk : s.latency with
  | nil => simp [hk] at h
  | cons j rest =>
    obtain ⟨k, rfl⟩ := Nat.exists_eq_succ_of_ne_zero (n := j) (by simpa [hk] using h)
    exact ⟨k, rest, rfl⟩

theorem access_refused_in_reset {s : State} (hp : s.resetPin = true) (off : BitVec 12) (v : Word) (a : BitVec 23)
    (b : Byte) :
    hostWrite off v s = .refused .accessDuringReset ∧ hostRead off s = .refused .accessDuringReset ∧
    hostWriteByte a b s = .refused .accessDuringReset ∧ hostReadByte a s = .refused .accessDuringReset ∧
    hostPoll s = .refused .accessDuringReset ∧ hostNarrow s = .refused .accessDuringReset := by
  simp [hostWrite, hostRead, hostWriteByte, hostReadByte, hostPoll, hostNarrow, hp]

/-- Settles O53: the reset is the waiting machine's next move, and gives up the command with its latency. -/
theorem resetDuringACommandAbandonsIt : Obligations.ResetDuringACommandAbandonsIt := by
  refine ⟨fun s w ms hl hd => ?_, fun s off v a b hp => access_refused_in_reset hp off v a b⟩
  obtain ⟨k, rest, hk⟩ := latency_of_waiting hd
  have hlat : (abandon { s with latency := k :: rest, moves := ms }).latency = s.latency.tail := by
    rw [abandon_latency (s := { s with latency := k :: rest, moves := ms }) hl, hk]
    rfl
  constructor
  · intro hm
    exact ⟨_, step_waiting_move hl hk hm, resetAssert_toHb _, resetAssert_resetPin _, hlat, resetAssert_moves _⟩
  · intro hm
    exact ⟨_, step_waiting_move hl hk hm, powerOn_toHb _, hlat, powerOn_moves _⟩

/-! ### The host's duties -/

section
variable {s : State} (hp : s.resetPin = false)
include hp

theorem access_refused_misaligned {off : BitVec 12} (ha : off.toNat % 4 ≠ 0) (v : Word) :
    hostWrite off v s = .refused .regAccessForm ∧ hostRead off s = .refused .regAccessForm := by
  have ha : regAligned off = false := Bool.eq_false_iff.2 (mt (regAligned_eq_true_iff off).1 ha)
  simp [hostWrite, hostRead, hp, ha]

theorem hostWrite_refused_busy {off : BitVec 12} (hb : busy s.toHb = true) (ha : off.toNat % 4 = 0) (v : Word) :
    hostWrite off v s = .refused (if off = 0x000 then .cmdWriteWhileBusy else .writeWhileBusy) := by
  have ha := (regAligned_eq_true_iff off).2 ha
  simp only [hostWrite, hp, ha, hb, if_true, Bool.false_eq_true, Bool.true_eq_false, if_false, regLoc_eq_cmd_iff]

theorem hostWriteByte_refused_busy (hb : busy s.toHb = true) (a : BitVec 23) (b : Byte) :
    hostWriteByte a b s = .refused .writeWhileBusy := by
  simp [hostWriteByte, hp, hb]

end

/-- Settles O54: the form of an access is checked first, then BUSY for a write alone. -/
theorem hostDutyViolationsAreRefused : Obligations.HostDutyViolationsAreRefused := by
  intro s hp
  refine ⟨fun off v ha => access_refused_misaligned hp ha v, by simp [hostNarrow, hp], fun hb => ⟨fun v => ?_,
    fun off v ha hne => ?_, hostWriteByte_refused_busy hp hb, fun off ha => ?_, fun a => ?_⟩⟩
  · exact hostWrite_refused_busy hp hb rfl v
  · rw [hostWrite_refused_busy hp hb ha, if_neg hne]
  · exact hostRead_admitted hp ((regAligned_eq_true_iff off).2 ha)
  · exact ⟨_, hostReadByte_admitted hp⟩

end Sys2Proof.Machine
